-- ==== Sys2Proof/Word.lean ====
section
/-! DEFINITION. The word types of the machine (spec/00_scope.md R6): a byte is 8 bits, a word 16 bits, a nibble 4 bits; an
immediate address has 12 bits (spec/30_encoding.md R71). All quantities are unsigned. -/

namespace Sys2Proof

/-- A byte, 8 bits (R6). -/
abbrev Byte := BitVec 8

/-- A word, 16 bits: an instruction, `pc`, `I`, a stack slot (R6). -/
abbrev Word := BitVec 16

/-- A nibble, 4 bits: the fields `x`, `y`, `n` of an instruction word (R6, R71). -/
abbrev Nibble := BitVec 4

/-- An immediate address `nnn`, 12 bits (R71). -/
abbrev Addr12 := BitVec 12

/-- The framebuffer's 2048 one-bit entries (spec/10_state.md R25), held as 32 rows of 64 bits: `FB[x + y*64]` is bit `x` of
row `y`. -/
abbrev Frame := Vector (BitVec 64) 32

end Sys2Proof
end

