-- ==== Sys2Proof/Syntax.lean ====
section
/-! DEFINITION. The instruction set: one constructor per row of spec/opcode_table.json, in the table's order
(spec/30_encoding.md R74). The operands have exactly the width of their field (R71), so every value of every operand is
one the encoding admits, register 15 included (R73). -/

namespace Sys2Proof

/-- The 18 instructions (R74); there are no others (R77). -/
inductive Instr where
  /-- `CLS`, 0x00E0 (R150). -/
  | cls
  /-- `RET`, 0x00EE (R110). -/
  | ret
  /-- `JP nnn`, 0x1nnn (R111). -/
  | jpNnn (nnn : Addr12)
  /-- `CALL nnn`, 0x2nnn (R112). -/
  | callNnn (nnn : Addr12)
  /-- `SE Vx,kk`, 0x3xkk (R120). -/
  | seVxKk (x : Nibble) (kk : Byte)
  /-- `SNE Vx,kk`, 0x4xkk (R121). -/
  | sneVxKk (x : Nibble) (kk : Byte)
  /-- `LD Vx,kk`, 0x6xkk (R130). -/
  | ldVxKk (x : Nibble) (kk : Byte)
  /-- `ADD Vx,kk`, 0x7xkk (R131). -/
  | addVxKk (x : Nibble) (kk : Byte)
  /-- `LD Vx,Vy`, 0x8xy0 (R132). -/
  | ldVxVy (x y : Nibble)
  /-- `SNE Vx,Vy`, 0x9xy0 (R122). -/
  | sneVxVy (x y : Nibble)
  /-- `LD I,nnn`, 0xAnnn (R140). -/
  | ldINnn (nnn : Addr12)
  /-- `RND Vx,kk`, 0xCxkk (R133). -/
  | rndVxKk (x : Nibble) (kk : Byte)
  /-- `DRW Vx,Vy,n`, 0xDxyn (R151). -/
  | drwVxVyN (x y n : Nibble)
  /-- `SKP Vx`, 0xEx9E (R160). -/
  | skpVx (x : Nibble)
  /-- `SKNP Vx`, 0xExA1 (R161). -/
  | sknpVx (x : Nibble)
  /-- `LD Vx,DT`, 0xFx07 (R170). -/
  | ldVxDt (x : Nibble)
  /-- `LD DT,Vx`, 0xFx15 (R171). -/
  | ldDtVx (x : Nibble)
  /-- `ADD I,Vx`, 0xFx1E (R141). -/
  | addIVx (x : Nibble)
  deriving DecidableEq, Repr

end Sys2Proof
end

