-- ==== Sys2Proof/WellFormed.lean ====
section
/-! DEFINITION. Which words are well formed (spec/30_encoding.md R74 to R76): the (mask, match) table, one row per
instruction in the table's order, and the check that a word matches a row. A term of `Instr` needs no check: its operands
have exactly the width of their fields, so an ill-formed instruction cannot be written; what can be ill formed is a word. -/

namespace Sys2Proof

/-- One row of the table of R74: a word `w` belongs to the row exactly when `w AND mask = pattern`. -/
structure Row where
  mask : Word
  pattern : Word
  deriving DecidableEq, Repr

/-- The row of an instruction (R74; the masks by the spec's decision D15, log 11). -/
def Instr.row : Instr → Row
  | .cls => ⟨0xFFFF#16, 0x00E0#16⟩
  | .ret => ⟨0xFFFF#16, 0x00EE#16⟩
  | .jpNnn _ => ⟨0xF000#16, 0x1000#16⟩
  | .callNnn _ => ⟨0xF000#16, 0x2000#16⟩
  | .seVxKk _ _ => ⟨0xF000#16, 0x3000#16⟩
  | .sneVxKk _ _ => ⟨0xF000#16, 0x4000#16⟩
  | .ldVxKk _ _ => ⟨0xF000#16, 0x6000#16⟩
  | .addVxKk _ _ => ⟨0xF000#16, 0x7000#16⟩
  | .ldVxVy _ _ => ⟨0xF00F#16, 0x8000#16⟩
  | .sneVxVy _ _ => ⟨0xF00F#16, 0x9000#16⟩
  | .ldINnn _ => ⟨0xF000#16, 0xA000#16⟩
  | .rndVxKk _ _ => ⟨0xF000#16, 0xC000#16⟩
  | .drwVxVyN _ _ _ => ⟨0xF000#16, 0xD000#16⟩
  | .skpVx _ => ⟨0xF0FF#16, 0xE09E#16⟩
  | .sknpVx _ => ⟨0xF0FF#16, 0xE0A1#16⟩
  | .ldVxDt _ => ⟨0xF0FF#16, 0xF007#16⟩
  | .ldDtVx _ => ⟨0xF0FF#16, 0xF015#16⟩
  | .addIVx _ => ⟨0xF0FF#16, 0xF01E#16⟩

/-- The decode table of R74, in its order. -/
def opcodeTable : List Row :=
  [⟨0xFFFF#16, 0x00E0#16⟩, ⟨0xFFFF#16, 0x00EE#16⟩, ⟨0xF000#16, 0x1000#16⟩, ⟨0xF000#16, 0x2000#16⟩, ⟨0xF000#16, 0x3000#16⟩, ⟨0xF000#16, 0x4000#16⟩,
   ⟨0xF000#16, 0x6000#16⟩, ⟨0xF000#16, 0x7000#16⟩, ⟨0xF00F#16, 0x8000#16⟩] ++
  [⟨0xF00F#16, 0x9000#16⟩, ⟨0xF000#16, 0xA000#16⟩, ⟨0xF000#16, 0xC000#16⟩, ⟨0xF000#16, 0xD000#16⟩, ⟨0xF0FF#16, 0xE09E#16⟩, ⟨0xF0FF#16, 0xE0A1#16⟩,
   ⟨0xF0FF#16, 0xF007#16⟩, ⟨0xF0FF#16, 0xF015#16⟩, ⟨0xF0FF#16, 0xF01E#16⟩]

/-- Does the word match the row (R74)? -/
def Row.accepts (r : Row) (w : Word) : Bool := w &&& r.mask == r.pattern

/-- A word is well formed when some row of the table accepts it; every other word is illegal (R75, R76). -/
def wordWellFormed (w : Word) : Bool := opcodeTable.any fun r => r.accepts w

end Sys2Proof
end

