-- ==== Sys2Proof/Decode.lean ====
section
/-! DEFINITION. The fields of an instruction word (spec/30_encoding.md R71), the decoder (R74 to R76), total on any word and
any bytes and rejecting by name, and the encoder (R72, R79). An instruction is two bytes in memory, the more significant
first (R70). -/

namespace Sys2Proof

/-- `op`, `w[15:12]`: the major opcode class (R71). -/
def fieldOp (w : Word) : Nibble := w.extractLsb' 12 4

/-- `x`, `w[11:8]` (R71). -/
def fieldX (w : Word) : Nibble := w.extractLsb' 8 4

/-- `y`, `w[7:4]` (R71). -/
def fieldY (w : Word) : Nibble := w.extractLsb' 4 4

/-- `n`, `w[3:0]` (R71). -/
def fieldN (w : Word) : Nibble := w.extractLsb' 0 4

/-- `kk`, `w[7:0]` (R71). -/
def fieldKk (w : Word) : Byte := w.extractLsb' 0 8

/-- `nnn`, `w[11:0]` (R71). -/
def fieldNnn (w : Word) : Addr12 := w.extractLsb' 0 12

/-- The more significant byte of a word: the byte at the lower address (R70, R53). -/
def highByte (w : Word) : Byte := w.extractLsb' 8 8

/-- The less significant byte of a word: the byte at the higher address (R70, R53). -/
def lowByte (w : Word) : Byte := w.extractLsb' 0 8

/-- The word of two bytes in memory order (R52, R70). -/
def wordOfBytes (hi lo : Byte) : Word := hi ++ lo

/-- Why a decoder rejects. -/
inductive DecodeError where
  /-- The word matches no row of R74: the machine raises `UnrecognizedOpcode(w)` (R76). -/
  | unrecognizedOpcode (w : Word)
  /-- Fewer than two bytes were given; the engine's fetch never gives that (it faults on the address instead, R91). -/
  | truncated
  deriving DecidableEq, Repr

/-- Decode one word (R75, R92): the rows of R74 in the spec's order, falling through to failure if none matches. -/
def decode (w : Word) : Except DecodeError Instr :=
  if w = 0x00E0#16 then .ok .cls
  else if w = 0x00EE#16 then .ok .ret
  else if fieldOp w = 0x1#4 then .ok (.jpNnn (fieldNnn w))
  else if fieldOp w = 0x2#4 then .ok (.callNnn (fieldNnn w))
  else if fieldOp w = 0x3#4 then .ok (.seVxKk (fieldX w) (fieldKk w))
  else if fieldOp w = 0x4#4 then .ok (.sneVxKk (fieldX w) (fieldKk w))
  else if fieldOp w = 0x6#4 then .ok (.ldVxKk (fieldX w) (fieldKk w))
  else if fieldOp w = 0x7#4 then .ok (.addVxKk (fieldX w) (fieldKk w))
  else if fieldOp w = 0x8#4 ∧ fieldN w = 0x0#4 then .ok (.ldVxVy (fieldX w) (fieldY w))
  else if fieldOp w = 0x9#4 ∧ fieldN w = 0x0#4 then .ok (.sneVxVy (fieldX w) (fieldY w))
  else if fieldOp w = 0xA#4 then .ok (.ldINnn (fieldNnn w))
  else if fieldOp w = 0xC#4 then .ok (.rndVxKk (fieldX w) (fieldKk w))
  else if fieldOp w = 0xD#4 then .ok (.drwVxVyN (fieldX w) (fieldY w) (fieldN w))
  else if fieldOp w = 0xE#4 ∧ fieldKk w = 0x9E#8 then .ok (.skpVx (fieldX w))
  else if fieldOp w = 0xE#4 ∧ fieldKk w = 0xA1#8 then .ok (.sknpVx (fieldX w))
  else if fieldOp w = 0xF#4 ∧ fieldKk w = 0x07#8 then .ok (.ldVxDt (fieldX w))
  else if fieldOp w = 0xF#4 ∧ fieldKk w = 0x15#8 then .ok (.ldDtVx (fieldX w))
  else if fieldOp w = 0xF#4 ∧ fieldKk w = 0x1E#8 then .ok (.addIVx (fieldX w))
  else .error (.unrecognizedOpcode w)

/-- Decode the first instruction of a list of bytes in memory order, with the rest of the list (R70: always two bytes). -/
def decodeBytes : List Byte → Except DecodeError (Instr × List Byte)
  | hi :: lo :: rest =>
    match decode (wordOfBytes hi lo) with
    | .ok i => .ok (i, rest)
    | .error e => .error e
  | _ => .error .truncated

/-- The word of an instruction (R72 formats, R79 table of words). -/
def encode : Instr → Word
  | .cls => 0x00E0#16
  | .ret => 0x00EE#16
  | .jpNnn nnn => 0x1#4 ++ nnn
  | .callNnn nnn => 0x2#4 ++ nnn
  | .seVxKk x kk => 0x3#4 ++ x ++ kk
  | .sneVxKk x kk => 0x4#4 ++ x ++ kk
  | .ldVxKk x kk => 0x6#4 ++ x ++ kk
  | .addVxKk x kk => 0x7#4 ++ x ++ kk
  | .ldVxVy x y => 0x8#4 ++ x ++ y ++ 0x0#4
  | .sneVxVy x y => 0x9#4 ++ x ++ y ++ 0x0#4
  | .ldINnn nnn => 0xA#4 ++ nnn
  | .rndVxKk x kk => 0xC#4 ++ x ++ kk
  | .drwVxVyN x y n => 0xD#4 ++ x ++ y ++ n
  | .skpVx x => 0xE#4 ++ x ++ 0x9E#8
  | .sknpVx x => 0xE#4 ++ x ++ 0xA1#8
  | .ldVxDt x => 0xF#4 ++ x ++ 0x07#8
  | .ldDtVx x => 0xF#4 ++ x ++ 0x15#8
  | .addIVx x => 0xF#4 ++ x ++ 0x1E#8

/-- The bytes of an instruction in memory order (R70). -/
def encodeBytes (i : Instr) : List Byte := [highByte (encode i), lowByte (encode i)]

/-- The instruction the decoder reads from the table's bits `w`, of which the row has `nbits` (the host's probe). This
hardware's instruction is one 16-bit word, stored high byte first. -/
def decodeTableWord (nbits w : Nat) : Option Instr :=
  let word : Word := BitVec.ofNat 16 (w % 2 ^ nbits)
  match decodeBytes [highByte word, lowByte word] with
  | .ok (i, _) => some i
  | .error _ => none

end Sys2Proof
end

