-- ==== Sys2Proof/Config.lean ====
section
/-! DEFINITION. What the implementation fixes (the parameter table of spec/00_scope.md R5) and the values the spec leaves
open. The open values are opaque constants: nothing in Lean can evaluate them or prove a value of them. -/

namespace Sys2Proof

/-- `MEM_SIZE`: bytes of memory, addresses 0x000 to 0xFFF (R5, R50). -/
@[simp] abbrev Config.memSize : Nat := 4096

/-- `PROG_BASE`: load address of an image and reset value of `pc` (R5). -/
@[simp] abbrev Config.progBase : Nat := 0x200

/-- `MAX_IMAGE`: the largest program image in bytes (R5). -/
@[simp] abbrev Config.maxImage : Nat := 0x0E00

/-- `FB_W`: framebuffer columns (R5). -/
@[simp] abbrev Config.fbWidth : Nat := 64

/-- `FB_H`: framebuffer rows (R5). -/
@[simp] abbrev Config.fbHeight : Nat := 32

/-- `FLAG_REG`: the index of the flag register `VF` (R5, R21). -/
@[simp] abbrev Config.flagReg : Nibble := 15#4

/-- `NKEYS`: the number of keys (R5). -/
@[simp] abbrev Config.numKeys : Nat := 16

/-- `MEM_INIT`: the byte at an address that no `load_program` has written (spec/92_eei_decisions.md D2, spec/93 U1).
An OPEN parameter about which nothing is assumed. Log 1; safe. -/
opaque Config.memInit : Nat → Byte

/-- `RAND`: the byte the random source answers to its draw number `k` (R133, D17, U2). Nothing relates the draws.
Log 2; safe. -/
opaque Config.rand : Nat → Byte

/-- The value of `VF` after the `k`-th faulting `DRW`, which the spec leaves unspecified (R151, D12, U6). Log 3; safe. -/
opaque Config.drwFaultVf : Nat → Byte

/-- The framebuffer after the `k`-th faulting `DRW`, which the spec leaves unspecified (R151, D12, U6). Log 3; safe. -/
opaque Config.drwFaultFb : Nat → Frame

end Sys2Proof
end

