-- ==== Sys2Proof/Machine/State.lean ====
section
/-! DEFINITION. The architectural state (spec/10_state.md R20 to R29), the eight faults (spec/60_exceptions.md R180), the
refusals, and the state after reset (R33). State is plain data. -/

namespace Sys2Proof.Machine

/-- The faults of R180, each with the datum it records. A fault raised inside `step` or `decode_and_execute` is no end of the
Lean run: it is latched in `State.faultInfo` (R189) and the step answers a next state. Only a host call on the Memory Unit
answers with one as an outcome, since there the fault goes back to the host and no state changes (R189). -/
inductive Fault where
  /-- Code 1. Raised by decode for a word outside R74 (R181). The spec's own behaviour, safe. -/
  | unrecognizedOpcode (w : Word)
  /-- Code 2. Raised by the fetch, by a `DRW` row read, and by a host read, at an address above 0xFFF (R182). The datum is
  the spec's decision D14. The spec's own behaviour, safe. -/
  | outOfBoundsMemoryAccess (a : Nat)
  /-- Code 3. Raised by `CALL` with `sp` = 16 (R183, decision D3). Safe: it errs toward unprovable. -/
  | stackOverflow
  /-- Code 4. Raised by `RET` with `sp` = 0 (R184, decision D4). Safe: it errs toward unprovable. -/
  | stackUnderflow
  /-- Code 5. Raised by `load_program` with more than 0x0E00 bytes, returned to the host, never latched (R185). Safe. -/
  | programTooLarge (len : Nat)
  /-- Code 6. Raised by `ADD I,Vx` when the sum exceeds 0xFFFF (R186, decision D6). Safe: it errs toward unprovable. -/
  | indexOverflow (sum : Nat)
  /-- Code 7. Raised by `DRW` for a set sprite bit outside the 64 by 32 grid (R187, decision D7). Safe: it errs toward
  unprovable. -/
  | framebufferOutOfBounds (cx cy : Nat)
  /-- Code 8. Raised by `SKP` and `SKNP` when `V[x]` is 16 or more (R188, decision D8). Safe: it errs toward unprovable. -/
  | keyIndexOutOfRange (k : Byte)
  deriving DecidableEq, Repr

/-- Why the model gives a case no meaning. -/
inductive Refusal where
  /-- An instruction that has no meaning yet; no arm of exec answers it. Safe. -/
  | notModelled (mnemonic : String)
  /-- A handler, reached by the direct entry with a `pc` or a stack slot no fetch has bounded, would compute a `pc` above
  0xFFFF: the spec gives such a call no meaning (R96, D16, U9). It never happens to `step` from reset (R99). Safe. -/
  | pcOverflow
  deriving DecidableEq, Repr

/-- The state of the engine, of the Memory Unit, and the two counters of the model's free values. -/
structure State where
  /-- `V[0..15]` (R20); `V[15]` is the flag register `VF` (R21). -/
  v : Vector Byte 16
  /-- The program counter (R22). -/
  pc : Word
  /-- The index register `I` (R23). -/
  i : Word
  /-- `STACK[0..15]` (R24). -/
  stack : Vector Word 16
  /-- `sp`: how many slots are in use, 0 to 16 inclusive (R24, D5). -/
  sp : Fin 17
  /-- `FB[0..2047]`, one bit each, row-major: `FB[x + y*64]` is bit `x` of row `y` (R25). -/
  fb : Frame
  /-- The delay timer `DT` (R26). -/
  dt : Byte
  /-- The sound timer `ST` (R26). -/
  st : Byte
  /-- `KEY[0..15]`, one bit each: `KEY[k]` is bit `k` (R27). -/
  key : BitVec 16
  /-- `MEM`: the bytes that `load_program` has written, by rising address; an unlisted byte holds `MEM_INIT` (R28, D2). -/
  mem : List Host.Cell
  /-- `faulted` with `fault_info`: `none` while not faulted (R29, D11). -/
  faultInfo : Option Fault
  /-- The model's own: how many bytes the random source has answered (log 2). -/
  rndCount : Nat
  /-- The model's own: how many `DRW`s have faulted (log 3). -/
  drwFaultCount : Nat
  deriving DecidableEq, Repr

/-- The state after reset (R33), which is also the state at power-on (R34, D1): memory lists nothing, so every byte holds
`MEM_INIT` (R211). The two counters start at 0 (DESIGN CHOICE, log 10). -/
def State.reset : State where
  v := Vector.replicate 16 0x00#8
  pc := 0x0200#16
  i := 0x0000#16
  stack := Vector.replicate 16 0x0000#16
  sp := 0
  fb := Vector.replicate 32 0#64
  dt := 0x00#8
  st := 0x00#8
  key := 0#16
  mem := []
  faultInfo := none
  rndCount := 0
  drwFaultCount := 0

end Sys2Proof.Machine
end

