-- ==== Sys2Proof/Machine/Ops.lean ====
section
/-! DEFINITION. The named operations over memory, registers and stack; taking a fault and leaving it; the new `pc` of a
handler; the fetch; the timer tick (spec/20_memory.md, spec/40_step_cycle.md, spec/60_exceptions.md,
spec/70_reset_and_hazards.md). -/

namespace Sys2Proof.Machine

/-! ### Memory (R50 to R57) -/

/-- The byte a `load_program` has written at `a`, if one has. -/
def Memory.lookup : List Host.Cell → Nat → Option Byte
  | [], _ => none
  | (c, d) :: m, a => if c = a then some d else Memory.lookup m a

/-- `MEM[a]`: the byte last loaded there, or `MEM_INIT` (R59, D2). -/
def Memory.byteAt (m : List Host.Cell) (a : Nat) : Byte :=
  match Memory.lookup m a with
  | some b => b
  | none => Config.memInit a

/-- `MemRead(a, 1)`: no masking, a fault above 0xFFF (R51). -/
def Memory.readByte (m : List Host.Cell) (a : Nat) : Except Fault Byte :=
  if a < Config.memSize then .ok (Memory.byteAt m a) else .error (.outOfBoundsMemoryAccess a)

/-- `MemRead(a, 2)`: two byte reads, the byte at the lower address the more significant (R52, R53); the datum of its fault
is the address of the byte out of range (D14). -/
def Memory.readWord (m : List Host.Cell) (a : Nat) : Except Fault Word :=
  match Memory.readByte m a with
  | .error f => .error f
  | .ok hi =>
    match Memory.readByte m (a + 1) with
    | .error f => .error f
    | .ok lo => .ok (wordOfBytes hi lo)

/-- Put a byte into the list, keeping the addresses rising. -/
def Memory.insert : List Host.Cell → Nat → Byte → List Host.Cell
  | [], a, b => [(a, b)]
  | (c, d) :: m, a, b =>
    if a < c then (a, b) :: (c, d) :: m
    else if a = c then (a, b) :: m
    else (c, d) :: Memory.insert m a b

/-- `MemWrite(a, 1, b)`, which only `load_program` performs (R55, R57); an address outside the space is not written. -/
def Memory.write (m : List Host.Cell) (a : Nat) (b : Byte) : List Host.Cell :=
  if a < Config.memSize then Memory.insert m a b else m

/-- Write bytes upward from `a` (the copy loop of R57). -/
def Memory.writeBytes (m : List Host.Cell) (a : Nat) : List Byte → List Host.Cell
  | [] => m
  | b :: bs => Memory.writeBytes (Memory.write m a b) (a + 1) bs

/-- Addresses at least `lo`, strictly rising, inside the address space. -/
def Memory.wfFrom (lo : Nat) : List Host.Cell → Bool
  | [] => true
  | (a, _) :: m => decide (lo ≤ a) && decide (a < Config.memSize) && Memory.wfFrom (a + 1) m

/-- The canonical form of memory: addresses strictly rising and below 4096 (log 1). -/
def Memory.wf (m : List Host.Cell) : Bool := Memory.wfFrom 0 m

/-! ### Registers -/

/-- Read `V[x]` (R20). -/
def State.readV (s : State) (x : Nibble) : Byte := s.v[x.toNat]'x.isLt

/-- Write `V[x]` (R20). -/
def State.setV (s : State) (x : Nibble) (b : Byte) : State := { s with v := s.v.set x.toNat b x.isLt }

/-- Write `pc` (R22). -/
def State.setPc (s : State) (a : Word) : State := { s with pc := a }

/-- Write `I` (R23). -/
def State.setI (s : State) (a : Word) : State := { s with i := a }

/-- Write `DT` (R26). -/
def State.setDt (s : State) (b : Byte) : State := { s with dt := b }

/-- Write `ST` (R26): only the tick does. -/
def State.setSt (s : State) (b : Byte) : State := { s with st := b }

/-- Write the framebuffer (R25). -/
def State.setFb (s : State) (f : Frame) : State := { s with fb := f }

/-- Write the key state (R27): only the host and `reset` do. -/
def State.setKey (s : State) (k : BitVec 16) : State := { s with key := k }

/-- Replace the memory (R28): only `load_program` does. -/
def State.setMem (s : State) (m : List Host.Cell) : State := { s with mem := m }

/-- `FB[k]` of a framebuffer, by its flat index `k` = x + y*64 (R25); 0 beyond the array. -/
def framePixel (fb : Frame) (k : Nat) : Bool :=
  if h : k / 64 < 32 then fb[k / 64].getLsbD (k % 64) else false

/-- Toggle `FB[k]` (R151); nothing beyond the array. -/
def frameToggle (fb : Frame) (k : Nat) : Frame :=
  if h : k / 64 < 32 then fb.set (k / 64) (fb[k / 64] ^^^ BitVec.twoPow 64 (k % 64)) else fb

/-- The framebuffer with every entry 0 (R150). -/
def frameClear : Frame := Vector.replicate 32 0#64

/-- `KEY[k]` (R27). -/
def State.keyDown (s : State) (k : Nat) : Bool := s.key.getLsbD k

/-- Is the engine in the `faulted` condition (R29)? -/
def State.faulted (s : State) : Bool := s.faultInfo.isSome

/-! ### Taking a fault, and the return from it -/

/-- The numeric cause of a fault (R180, decision D14); no instruction can read it. -/
def Fault.code : Fault → Nat
  | .unrecognizedOpcode _ => 1
  | .outOfBoundsMemoryAccess _ => 2
  | .stackOverflow => 3
  | .stackUnderflow => 4
  | .programTooLarge _ => 5
  | .indexOverflow _ => 6
  | .framebufferOutOfBounds _ _ => 7
  | .keyIndexOutOfRange _ => 8

/-- Set the latch: name and datum (R29, R189). -/
def State.latch (s : State) (f : Fault) : State := { s with faultInfo := some f }

/-- `raise` inside `step` or `decode_and_execute` (R189, D11): the operation ends, the latch records the fault, `pc` stays
at the faulting instruction (R97), control goes nowhere in the program. -/
def raise (f : Fault) (s : State) : Host.Outcome State Fault Refusal := .next (s.latch f)

/-- `reset()` (R210, R33): every element of engine state takes its reset value and the latch is cleared; memory is not
touched. It is the only exit from the `faulted` condition (R193, D20). The random source is another agent: its draws go on
(log 10). -/
def State.engineReset (s : State) : State :=
  { State.reset with mem := s.mem, rndCount := s.rndCount, drwFaultCount := s.drwFaultCount }

/-- A `DRW` that faults leaves `VF` and the framebuffer unspecified (R151, R191, U6): two free values (log 3). -/
def State.spoilDraw (s : State) : State :=
  { s.setV Config.flagReg (Config.drwFaultVf s.drwFaultCount) with
    fb := Config.drwFaultFb s.drwFaultCount
    drwFaultCount := s.drwFaultCount + 1 }

/-! ### The new pc of a handler (R93) -/

/-- `pc <- t`; a target above 0xFFFF has no meaning and is refused (R96, D16, U9). -/
def goto (t : Nat) (s : State) : Host.Outcome State Fault Refusal :=
  if t ≤ 0xFFFF then .next (s.setPc (BitVec.ofNat 16 t)) else .refused .pcOverflow

/-- `pc <- pc + d`, the last action of a handler that does not transfer control (R93). -/
def advance (d : Nat) (s : State) : Host.Outcome State Fault Refusal := goto (s.pc.toNat + d) s

/-! ### The call stack (R24) -/

/-- Push: the check, then the slot, then `sp` (R112, D3). -/
def State.push (s : State) (a : Word) : Except Fault State :=
  if h : s.sp.val = 16 then .error .stackOverflow
  else .ok { s with stack := s.stack.set s.sp.val a (by omega), sp := ⟨s.sp.val + 1, by omega⟩ }

/-- Pop: the check, then `sp`, then the slot, which keeps its value (R110, R24, D4). -/
def State.pop (s : State) : Except Fault (Word × State) :=
  if h : s.sp.val = 0 then .error .stackUnderflow
  else .ok (s.stack[s.sp.val - 1], { s with sp := ⟨s.sp.val - 1, by omega⟩ })

/-! ### The random source (R133) -/

/-- `rand()`: the next byte of the random source, and the state in which it has been drawn (log 2). -/
def State.nextRandom (s : State) : Byte × State :=
  (Config.rand s.rndCount, { s with rndCount := s.rndCount + 1 })

/-! ### Fetch and tick -/

/-- The fetch: `MemRead(pc, 2)`; it changes no state (R91). -/
def fetch (s : State) : Except Fault Word := Memory.readWord s.mem s.pc.toNat

/-- The fault of a word the decoder rejects (R181). A truncated list cannot come from a word. -/
def faultOfDecode (w : Word) : DecodeError → Fault
  | .unrecognizedOpcode u => .unrecognizedOpcode u
  | .truncated => .unrecognizedOpcode w

/-- One timer's tick: down by one, never below zero (R94). -/
def tickDown (t : Byte) : Byte := if t = 0x00#8 then 0x00#8 else t - 0x01#8

/-- The timer tick at the end of a completed step, and whether it emits `beep` (R94, R95). -/
def timerTick (s : State) : State × Bool :=
  ((s.setDt (tickDown s.dt)).setSt (tickDown s.st), s.st == 0x01#8)

/-- Put an instruction word where the fetch reads it, high byte first (R70); used by withFetchWord only. -/
def Memory.placeWord (m : List Host.Cell) (a : Nat) (w : Word) : List Host.Cell :=
  Memory.write (Memory.write m a (highByte w)) (a + 1) (lowByte w)

end Sys2Proof.Machine
end

