-- ==== Sys2Proof/Machine/Operands.lean ====
section
/-! DEFINITION. Every operand form (spec/30_encoding.md R73): the immediate address, the register operands, a sprite's
coordinates, rows and pixels (spec/45_display.md R151), the key number (spec/46_key.md R160), the two distances of a skip
(spec/40_step_cycle.md R93). -/

namespace Sys2Proof.Machine

/-- `zext_16(nnn)`: an absolute byte address, not scaled, not relative (R73). -/
def zextAddr (nnn : Addr12) : Word := nnn.setWidth 16

/-- The distance of a skip: 4 when the condition holds, else 2 (R93). -/
def skipDistance (taken : Bool) : Nat := if taken then 4 else 2

/-- The address of a sprite row: the unbounded sum `I + row`, not masked (R151). -/
def rowAddress (i : Word) (row : Nat) : Nat := i.toNat + row

/-- Is the sprite bit of column `col` set? Column 0 is bit 7, the leftmost pixel (R151). -/
def spriteColumn (b : Byte) (col : Nat) : Bool := b.getLsbD (7 - col)

/-- Does a pixel lie inside the 64 by 32 grid (R151, D7)? -/
def onScreen (cx cy : Nat) : Bool := decide (cx < Config.fbWidth) && decide (cy < Config.fbHeight)

/-- The index of the pixel in column `cx` and row `cy` (R25). -/
def pixelIndex (cx cy : Nat) : Nat := cx + cy * 64

/-- The key number in `V[x]`: the register's contents, not masked; 16 or more is a fault (R160, D8). -/
def State.keyOperand (s : State) (x : Nibble) : Except Fault Nat :=
  if (s.readV x).toNat < Config.numKeys then .ok (s.readV x).toNat else .error (.keyIndexOutOfRange (s.readV x))

/-- The sum `I + V[x]` as an unbounded integer (R141). -/
def State.indexSum (s : State) (x : Nibble) : Nat := s.i.toNat + (s.readV x).toNat

end Sys2Proof.Machine
end

