-- ==== Sys2Proof/Machine/Flags.lean ====
section
/-! DEFINITION. The flag computations: the carry of `ADD Vx,kk` (spec/43_register.md R131) and the collision of `DRW`
(spec/45_display.md R151, R152). There is no other flag (spec/10_state.md R21). -/

namespace Sys2Proof.Machine

/-- `1 if old > new else 0`: the carry of the 8-bit addition (R131). -/
def carryFlag (old new : Byte) : Byte := if new < old then 0x01#8 else 0x00#8

/-- The flag after one toggled pixel: 1 if the pixel held 1 just before, else as it was (R151, R152). -/
def collisionFlag (vf : Byte) (pixelBefore : Bool) : Byte := if pixelBefore then 0x01#8 else vf

/-- Write the flag register `VF` = `V[15]` (R21). -/
def State.setVf (s : State) (b : Byte) : State := s.setV Config.flagReg b

end Sys2Proof.Machine
end

