-- ==== Sys2Proof/Machine/Display.lean ====
section
/-! DEFINITION. The display: `CLS`, `DRW Vx,Vy,n` and the collision detector (spec/45_display.md R150 to R152). -/

namespace Sys2Proof.Machine

/-- What the loops of `DRW` change: the framebuffer and `VF` (R151). -/
structure Canvas where
  fb : Frame
  vf : Byte
  deriving DecidableEq, Repr

/-- `CLS` (R150): `VF` is not written. -/
def execCls (s : State) : Host.Outcome State Fault Refusal := advance 2 (s.setFb frameClear)

/-- One sprite bit of `DRW` (the body of the column loop of R151): a clear bit touches nothing and is not checked; a set bit
outside the grid faults (D7); inside, the collision detector looks at the pixel before the toggle (R152). -/
def drawBit (px py row : Nat) (b : Byte) (col : Nat) (c : Canvas) : Except Fault Canvas :=
  if spriteColumn b col then
    if onScreen (px + col) (py + row) then
      let k := pixelIndex (px + col) (py + row)
      .ok { fb := frameToggle c.fb k, vf := collisionFlag c.vf (framePixel c.fb k) }
    else .error (.framebufferOutOfBounds (px + col) (py + row))
  else .ok c

/-- The column loop over the given columns, in order (R151). -/
def drawColumns (px py row : Nat) (b : Byte) : List Nat → Canvas → Except Fault Canvas
  | [], c => .ok c
  | col :: cols, c =>
    match drawBit px py row b col c with
    | .error f => .error f
    | .ok c' => drawColumns px py row b cols c'

/-- One row: the memory read first, then the bits from column 0 to column 7 (R151, R192). -/
def drawRow (m : List Host.Cell) (i : Word) (px py row : Nat) (c : Canvas) : Except Fault Canvas :=
  match Memory.readByte m (rowAddress i row) with
  | .error f => .error f
  | .ok b => drawColumns px py row b (List.range 8) c

/-- The row loop over the given rows, in order (R151). -/
def drawRows (m : List Host.Cell) (i : Word) (px py : Nat) : List Nat → Canvas → Except Fault Canvas
  | [], c => .ok c
  | row :: rows, c =>
    match drawRow m i px py row c with
    | .error f => .error f
    | .ok c' => drawRows m i px py rows c'

/-- `DRW Vx,Vy,n` (R151): the coordinates are sampled before `VF` is cleared (D10); rows 0 to n-1 (C1). After a fault `VF`
and the framebuffer are free values and nothing else has changed (D12, log 3). -/
def execDrwVxVyN (x y n : Nibble) (s : State) : Host.Outcome State Fault Refusal :=
  let px := (s.readV x).toNat
  let py := (s.readV y).toNat
  match drawRows s.mem s.i px py (List.range n.toNat) { fb := s.fb, vf := 0x00#8 } with
  | .error f => raise f s.spoilDraw
  | .ok c => advance 2 ((s.setFb c.fb).setVf c.vf)

end Sys2Proof.Machine
end

