-- ==== Sys2Proof/Machine/Flow.lean ====
section
/-! DEFINITION. Control transfer: `RET`, `JP nnn`, `CALL nnn` (spec/41_flow.md R110 to R112). -/

namespace Sys2Proof.Machine

/-- `RET` (R110): pop, then `pc <- STACK[sp] + 2`; `StackUnderflow` when `sp` = 0 (D4). -/
def execRet (s : State) : Host.Outcome State Fault Refusal :=
  match s.pop with
  | .error f => raise f s
  | .ok (slot, t) => goto (slot.toNat + 2) t

/-- `JP nnn` (R111): the target is not checked. -/
def execJpNnn (nnn : Addr12) (s : State) : Host.Outcome State Fault Refusal := .next (s.setPc (zextAddr nnn))

/-- `CALL nnn` (R112): push the address of this instruction, not of the next; `StackOverflow` when `sp` = 16 (D3). -/
def execCallNnn (nnn : Addr12) (s : State) : Host.Outcome State Fault Refusal :=
  match s.push s.pc with
  | .error f => raise f s
  | .ok t => .next (t.setPc (zextAddr nnn))

end Sys2Proof.Machine
end

