-- ==== Sys2Proof/Machine/Index.lean ====
section
/-! DEFINITION. The index register: `LD I,nnn`, `ADD I,Vx` (spec/44_index.md R140, R141). -/

namespace Sys2Proof.Machine

/-- `LD I,nnn` (R140). -/
def execLdINnn (nnn : Addr12) (s : State) : Host.Outcome State Fault Refusal := advance 2 (s.setI (zextAddr nnn))

/-- `ADD I,Vx` (R141): no masking to 12 bits, no flag; `IndexOverflow` above 0xFFFF, before any write (D6). -/
def execAddIVx (x : Nibble) (s : State) : Host.Outcome State Fault Refusal :=
  if s.indexSum x > 0xFFFF then raise (.indexOverflow (s.indexSum x)) s
  else advance 2 (s.setI (BitVec.ofNat 16 (s.indexSum x)))

end Sys2Proof.Machine
end

