-- ==== Sys2Proof/Machine/Key.lean ====
section
/-! DEFINITION. The skips on key state: `SKP Vx`, `SKNP Vx` (spec/46_key.md R160, R161). -/

namespace Sys2Proof.Machine

/-- `SKP Vx` (R160): the key number is the contents of `V[x]`; 16 or more faults (D8). -/
def execSkpVx (x : Nibble) (s : State) : Host.Outcome State Fault Refusal :=
  match s.keyOperand x with
  | .error f => raise f s
  | .ok k => advance (skipDistance (s.keyDown k)) s

/-- `SKNP Vx` (R161). -/
def execSknpVx (x : Nibble) (s : State) : Host.Outcome State Fault Refusal :=
  match s.keyOperand x with
  | .error f => raise f s
  | .ok k => advance (skipDistance (!s.keyDown k)) s

end Sys2Proof.Machine
end

