-- ==== Sys2Proof/Machine/Register.lean ====
section
/-! DEFINITION. Register loads and arithmetic: `LD Vx,kk`, `ADD Vx,kk`, `LD Vx,Vy`, `RND Vx,kk` (spec/43_register.md R130 to
R134). -/

namespace Sys2Proof.Machine

/-- `LD Vx,kk` (R130). -/
def execLdVxKk (x : Nibble) (kk : Byte) (s : State) : Host.Outcome State Fault Refusal := advance 2 (s.setV x kk)

/-- `ADD Vx,kk` (R131): the sum modulo 256 into `V[x]`, and after it the carry into `VF`, so that for `x` = 15 the carry
stays (D9, log 11). -/
def execAddVxKk (x : Nibble) (kk : Byte) (s : State) : Host.Outcome State Fault Refusal :=
  let old := s.readV x
  let new := old + kk
  advance 2 ((s.setV x new).setVf (carryFlag old new))

/-- `LD Vx,Vy` (R132). -/
def execLdVxVy (x y : Nibble) (s : State) : Host.Outcome State Fault Refusal := advance 2 (s.setV x (s.readV y))

/-- `RND Vx,kk` (R133): one byte is drawn, once. -/
def execRndVxKk (x : Nibble) (kk : Byte) (s : State) : Host.Outcome State Fault Refusal :=
  match s.nextRandom with
  | (r, t) => advance 2 (t.setV x (kk &&& r))

end Sys2Proof.Machine
end

