-- ==== Sys2Proof/Machine/Skip.lean ====
section
/-! DEFINITION. The skips on registers: `SE Vx,kk`, `SNE Vx,kk`, `SNE Vx,Vy` (spec/42_skip.md R120 to R122). The skipped word
is not looked at. -/

namespace Sys2Proof.Machine

/-- `SE Vx,kk` (R120). -/
def execSeVxKk (x : Nibble) (kk : Byte) (s : State) : Host.Outcome State Fault Refusal :=
  advance (skipDistance (s.readV x == kk)) s

/-- `SNE Vx,kk` (R121). -/
def execSneVxKk (x : Nibble) (kk : Byte) (s : State) : Host.Outcome State Fault Refusal :=
  advance (skipDistance (s.readV x != kk)) s

/-- `SNE Vx,Vy` (R122). -/
def execSneVxVy (x y : Nibble) (s : State) : Host.Outcome State Fault Refusal :=
  advance (skipDistance (s.readV x != s.readV y)) s

end Sys2Proof.Machine
end

