-- ==== Sys2Proof/Machine/Timer.lean ====
section
/-! DEFINITION. The delay timer: `LD Vx,DT`, `LD DT,Vx` (spec/47_timer.md R170, R171). The tick is the step's, not the
handler's (spec/40_step_cycle.md R94). -/

namespace Sys2Proof.Machine

/-- `LD Vx,DT` (R170). -/
def execLdVxDt (x : Nibble) (s : State) : Host.Outcome State Fault Refusal := advance 2 (s.setV x s.dt)

/-- `LD DT,Vx` (R171). -/
def execLdDtVx (x : Nibble) (s : State) : Host.Outcome State Fault Refusal := advance 2 (s.setDt (s.readV x))

end Sys2Proof.Machine
end

