-- ==== Sys2Proof/Machine/Cycle.lean ====
section
/-! DEFINITION. The step cycle (spec/40_step_cycle.md R90 to R97): decode and execute a word, the direct entry, and one whole
step with its two outputs, the beep (R95, D21) and the fault report (R190). -/

namespace Sys2Proof.Machine

/-- What one operation of the engine answers: its outcome, whether it emitted `beep` (R95; an output, not state: R30), and the
fault it reports to the host (R190). -/
structure StepResult where
  outcome : Host.Outcome State Fault Refusal
  beep : Bool
  report : Option Fault

/-- Decode a word and execute its handler (R92, R93): a word outside the table raises `UnrecognizedOpcode` (R181). -/
def runWord (w : Word) (s : State) : Host.Outcome State Fault Refusal :=
  match decode w with
  | .error e => raise (faultOfDecode w e) s
  | .ok i => exec i s

/-- The fault an outcome reports: the latched one (R190). -/
def reportOf : Host.Outcome State Fault Refusal → Option Fault
  | .next t => t.faultInfo
  | .fault f => some f
  | .refused _ => none

/-- `decode_and_execute(word)`: no fetch, no tick (R96); on a faulted engine no state change and the same report (R29). -/
def decodeAndExecute (w : Word) (s : State) : StepResult :=
  match s.faultInfo with
  | some f => { outcome := .next s, beep := false, report := some f }
  | none => { outcome := runWord w s, beep := false, report := reportOf (runWord w s) }

/-- The end of a step: a completed handler is followed by the tick; after a fault there is no tick and no beep (R94, R97). -/
def finishStep : Host.Outcome State Fault Refusal → StepResult
  | .next t =>
    match t.faultInfo with
    | some f => { outcome := .next t, beep := false, report := some f }
    | none => { outcome := .next (timerTick t).1, beep := (timerTick t).2, report := none }
  | .fault f => { outcome := .fault f, beep := false, report := some f }
  | .refused r => { outcome := .refused r, beep := false, report := none }

/-- One `step()` with its outputs (R90). A faulted engine changes no state and reports the same fault (R29, R223, D11). -/
def cycle (s : State) : StepResult :=
  match s.faultInfo with
  | some f => { outcome := .next s, beep := false, report := some f }
  | none =>
    match fetch s with
    | .error f => finishStep (raise f s)
    | .ok w => finishStep (runWord w s)

end Sys2Proof.Machine
end

