-- ==== Sys2Proof/Machine/Step.lean ====
section
/-! DEFINITION. One step of the machine (spec/40_step_cycle.md R90), and the host's probe that places an instruction where the
step fetches. -/

namespace Sys2Proof.Machine

/-- One `step()`; its outputs are those of `cycle` (R90). -/
def step (s : State) : Host.Outcome State Fault Refusal := (cycle s).outcome

/-- The state with the instruction `w` of `nbits` table bits stored at `pc`, high byte first, and the fault latch cleared,
without which no fetch happens (log 13). For a `pc` up to 0x0FFE the very next step fetches and runs exactly it. -/
def State.withFetchWord (s : State) (nbits w : Nat) : State :=
  { s with mem := Memory.placeWord s.mem s.pc.toNat (BitVec.ofNat 16 (w % 2 ^ nbits)), faultInfo := none }

end Sys2Proof.Machine
end

