-- ==== Sys2Proof/Machine/HostOps.lean ====
section
/-! DEFINITION. The host's side of the interface (spec/00_scope.md R9): load_program, the host's reads, the framebuffer view,
the key writes, and every operation that can change state as one type. The host acts between engine operations only (R8,
R215). -/

namespace Sys2Proof.Machine

/-- `load_program(bytes)` (R57): the length is checked first, and then nothing is copied (D19); it touches no engine state. Its
fault goes back to the host and sets no latch (R185, R189). -/
def loadProgram (bytes : List Byte) (s : State) : Host.Outcome State Fault Refusal :=
  if bytes.length > Config.maxImage then .fault (.programTooLarge bytes.length)
  else .next (s.setMem (Memory.writeBytes s.mem Config.progBase bytes))

/-- A host call of `read_byte` (R51): it changes no state, latched or not (R189). -/
def hostReadByte (a : Nat) (s : State) : Except Fault Byte := Memory.readByte s.mem a

/-- A host call of `read_word` (R52). -/
def hostReadWord (a : Nat) (s : State) : Except Fault Word := Memory.readWord s.mem a

/-- `framebuffer()`: the read-only view of the 2048 pixels (R25). -/
def framebuffer (s : State) : List Bool := (List.range 2048).map fun k => framePixel s.fb k

/-- The host writes `KEY[k]` (R27): one bit, so no value but 0 and 1 can be written (D18). -/
def writeKey (k : Nibble) (pressed : Bool) (s : State) : State :=
  s.setKey (if pressed then s.key ||| BitVec.twoPow 16 k.toNat else s.key &&& ~~~ BitVec.twoPow 16 k.toNat)

/-- Every operation of R9 that can change state. -/
inductive Operation where
  | step
  | reset
  | decodeAndExecute (w : Word)
  | loadProgram (bytes : List Byte)
  | writeKey (k : Nibble) (pressed : Bool)
  deriving DecidableEq, Repr

/-- Perform one operation of the interface. -/
def perform (o : Operation) (s : State) : Host.Outcome State Fault Refusal :=
  match o with
  | .step => Sys2Proof.Machine.step s
  | .reset => .next s.engineReset
  | .decodeAndExecute w => (Sys2Proof.Machine.decodeAndExecute w s).outcome
  | .loadProgram bytes => Sys2Proof.Machine.loadProgram bytes s
  | .writeKey k pressed => .next (Sys2Proof.Machine.writeKey k pressed s)

end Sys2Proof.Machine
end

