-- ==== Sys2Proof/Safety.lean ====
section
/-! DEFINITION. The terms claims use: what a good state and a successful step are, which instructions do what, a sprite's pixels
said without the drawing loops, and the run of a whole session of host operations. -/

namespace Sys2Proof.Machine

/-! ### Good states -/

/-- Not faulted (R29): a faulted state is never a final state of a successful run (U10). -/
abbrev State.Running (s : State) : Prop := s.faultInfo = none

/-- The bound on `pc` and on the stack slots at the start of every step of a run of `reset` and `step` (R99). -/
abbrev State.Bounded (s : State) : Prop := s.pc.toNat ≤ 0x1002 ∧ ∀ j : Fin 16, (s.stack[j]).toNat ≤ 0x0FFE

/-- The sound timer is 0, so no step emits `beep` (R26, R95). -/
abbrev State.Silent (s : State) : Prop := s.st = 0x00#8

/-- Memory is in canonical form (log 1). -/
abbrev State.Canonical (s : State) : Prop := Memory.wf s.mem = true

/-- A step succeeds when it answers a state that is not faulted. -/
abbrev Succeeds (o : Host.Outcome State Fault Refusal) : Prop :=
  match o with
  | .next t => t.Running
  | .fault _ => False
  | .refused _ => False

end Sys2Proof.Machine

namespace Sys2Proof

open Machine

/-! ### What an instruction writes, in the spec's words -/

/-- The general register an instruction writes through its `x` field (R20). -/
def Instr.destination : Instr → Option Nibble
  | .ldVxKk x _ => some x
  | .addVxKk x _ => some x
  | .ldVxVy x _ => some x
  | .rndVxKk x _ => some x
  | .ldVxDt x => some x
  | .cls | .ret | .jpNnn _ | .callNnn _ | .seVxKk _ _ | .sneVxKk _ _ | .sneVxVy _ _ | .ldINnn _ => none
  | .drwVxVyN _ _ _ | .skpVx _ | .sknpVx _ | .ldDtVx _ | .addIVx _ => none

/-- Does the instruction write `VF` as a side effect (R21)? -/
def Instr.writesFlag : Instr → Bool
  | .addVxKk _ _ => true
  | .drwVxVyN _ _ _ => true
  | .cls | .ret | .jpNnn _ | .callNnn _ | .seVxKk _ _ | .sneVxKk _ _ | .ldVxKk _ _ | .ldVxVy _ _ => false
  | .sneVxVy _ _ | .ldINnn _ | .rndVxKk _ _ | .skpVx _ | .sknpVx _ | .ldVxDt _ | .ldDtVx _ | .addIVx _ => false

/-- `CALL` and `RET`, the two that touch the stack (R24). -/
def Instr.usesStack : Instr → Bool
  | .ret => true
  | .callNnn _ => true
  | .cls | .jpNnn _ | .seVxKk _ _ | .sneVxKk _ _ | .ldVxKk _ _ | .addVxKk _ _ | .ldVxVy _ _ | .sneVxVy _ _ => false
  | .ldINnn _ | .rndVxKk _ _ | .drwVxVyN _ _ _ | .skpVx _ | .sknpVx _ | .ldVxDt _ | .ldDtVx _ | .addIVx _ => false

/-- `CLS` and `DRW`, the two that touch the framebuffer (R25, R32). -/
def Instr.usesFrame : Instr → Bool
  | .cls => true
  | .drwVxVyN _ _ _ => true
  | .ret | .jpNnn _ | .callNnn _ | .seVxKk _ _ | .sneVxKk _ _ | .ldVxKk _ _ | .addVxKk _ _ | .ldVxVy _ _ => false
  | .sneVxVy _ _ | .ldINnn _ | .rndVxKk _ _ | .skpVx _ | .sknpVx _ | .ldVxDt _ | .ldDtVx _ | .addIVx _ => false

/-- `SKP` and `SKNP`, the two that read the key state (R27). -/
def Instr.usesKeys : Instr → Bool
  | .skpVx _ => true
  | .sknpVx _ => true
  | .cls | .ret | .jpNnn _ | .callNnn _ | .seVxKk _ _ | .sneVxKk _ _ | .ldVxKk _ _ | .addVxKk _ _ => false
  | .ldVxVy _ _ | .sneVxVy _ _ | .ldINnn _ | .rndVxKk _ _ | .drwVxVyN _ _ _ | .ldVxDt _ | .ldDtVx _ | .addIVx _ => false

/-- The two that touch the delay timer (R26). -/
def Instr.usesDelay : Instr → Bool
  | .ldVxDt _ => true
  | .ldDtVx _ => true
  | .cls | .ret | .jpNnn _ | .callNnn _ | .seVxKk _ _ | .sneVxKk _ _ | .ldVxKk _ _ | .addVxKk _ _ => false
  | .ldVxVy _ _ | .sneVxVy _ _ | .ldINnn _ | .rndVxKk _ _ | .drwVxVyN _ _ _ | .skpVx _ | .sknpVx _ | .addIVx _ => false

/-- The two that write the index register (R23). -/
def Instr.writesIndex : Instr → Bool
  | .ldINnn _ => true
  | .addIVx _ => true
  | .cls | .ret | .jpNnn _ | .callNnn _ | .seVxKk _ _ | .sneVxKk _ _ | .ldVxKk _ _ | .addVxKk _ _ => false
  | .ldVxVy _ _ | .sneVxVy _ _ | .rndVxKk _ _ | .drwVxVyN _ _ _ | .skpVx _ | .sknpVx _ | .ldVxDt _ | .ldDtVx _ => false

/-- `RND`, the one that draws a random byte (R133). -/
def Instr.drawsRandom : Instr → Bool
  | .rndVxKk _ _ => true
  | .cls | .ret | .jpNnn _ | .callNnn _ | .seVxKk _ _ | .sneVxKk _ _ | .ldVxKk _ _ | .addVxKk _ _ => false
  | .ldVxVy _ _ | .sneVxVy _ _ | .ldINnn _ | .drwVxVyN _ _ _ | .skpVx _ | .sknpVx _ => false
  | .ldVxDt _ | .ldDtVx _ | .addIVx _ => false

/-- The six instructions that can fault once decoded (R191). -/
def Instr.canFault : Instr → Bool
  | .ret => true
  | .callNnn _ => true
  | .addIVx _ => true
  | .skpVx _ => true
  | .sknpVx _ => true
  | .drwVxVyN _ _ _ => true
  | .cls | .jpNnn _ | .seVxKk _ _ | .sneVxKk _ _ | .ldVxKk _ _ | .addVxKk _ _ | .ldVxVy _ _ | .sneVxVy _ _ => false
  | .ldINnn _ | .rndVxKk _ _ | .ldVxDt _ | .ldDtVx _ => false

/-- Is it `DRW`? -/
def Instr.isDraw : Instr → Bool
  | .drwVxVyN _ _ _ => true
  | .cls | .ret | .jpNnn _ | .callNnn _ | .seVxKk _ _ | .sneVxKk _ _ | .ldVxKk _ _ | .addVxKk _ _ => false
  | .ldVxVy _ _ | .sneVxVy _ _ | .ldINnn _ | .rndVxKk _ _ | .skpVx _ | .sknpVx _ => false
  | .ldVxDt _ | .ldDtVx _ | .addIVx _ => false

/-- The unbounded `pc` that the handler computes as its last action (R93); for `RET` on an empty stack, which faults, it is 0. -/
def Instr.target (i : Instr) (s : State) : Nat :=
  match i with
  | .cls | .ldVxKk _ _ | .addVxKk _ _ | .ldVxVy _ _ | .ldINnn _ | .rndVxKk _ _ => s.pc.toNat + 2
  | .drwVxVyN _ _ _ | .ldVxDt _ | .ldDtVx _ | .addIVx _ => s.pc.toNat + 2
  | .ret => if h : s.sp.val = 0 then 0 else (s.stack[s.sp.val - 1]).toNat + 2
  | .jpNnn nnn => nnn.toNat
  | .callNnn nnn => nnn.toNat
  | .seVxKk x kk => if s.readV x = kk then s.pc.toNat + 4 else s.pc.toNat + 2
  | .sneVxKk x kk => if s.readV x = kk then s.pc.toNat + 2 else s.pc.toNat + 4
  | .sneVxVy x y => if s.readV x = s.readV y then s.pc.toNat + 2 else s.pc.toNat + 4
  | .skpVx x => if s.keyDown (s.readV x).toNat = true then s.pc.toNat + 4 else s.pc.toNat + 2
  | .sknpVx x => if s.keyDown (s.readV x).toNat = true then s.pc.toNat + 2 else s.pc.toNat + 4

end Sys2Proof

namespace Sys2Proof.Machine

/-! ### A sprite, said without the loops -/

/-- Is the bit of row `row` and column `col` of the sprite at `I` set? It is bit `7 - col` of the byte at `I + row`, so column 0
is bit 7 (R151). Said without the operand forms that the drawing loops use. -/
def spriteBit (m : List Host.Cell) (i : Word) (row col : Nat) : Bool :=
  (Memory.byteAt m (i.toNat + row)).getLsbD (7 - col)

/-- Row `row` of the sprite draws without a fault: its byte lies in memory and each of its set bits in the grid. -/
abbrev RowFits (m : List Host.Cell) (i : Word) (px py row : Nat) : Prop :=
  i.toNat + row < 4096 ∧ ∀ col < 8, spriteBit m i row col = true → px + col < 64 ∧ py + row < 32

/-- The first `n` rows of the sprite draw without a fault. -/
abbrev SpriteFits (m : List Host.Cell) (i : Word) (px py n : Nat) : Prop := ∀ row < n, RowFits m i px py row

/-- Does a set bit of the first `n` rows land on pixel `k`? -/
def spriteCovers (m : List Host.Cell) (i : Word) (px py n k : Nat) : Bool :=
  (List.range n).any fun row => (List.range 8).any fun col =>
    spriteBit m i row col && decide (k = (px + col) + (py + row) * 64)

/-- Does a set bit of the first `n` rows land on a pixel that is 1 in `fb`? -/
def spriteHits (m : List Host.Cell) (i : Word) (px py n : Nat) (fb : Frame) : Bool :=
  (List.range n).any fun row => (List.range 8).any fun col =>
    spriteBit m i row col && framePixel fb ((px + col) + (py + row) * 64)

/-! ### Comparing runs, and sessions -/

/-- Apply a change to the state an outcome answers. -/
def mapNext (g : State → State) : Host.Outcome State Fault Refusal → Host.Outcome State Fault Refusal
  | .next t => .next (g t)
  | .fault f => .fault f
  | .refused r => .refused r

/-- An operation of the host's ordinary use: everything but the test entry `decode_and_execute` (R96). -/
def Operation.ordinary : Operation → Bool
  | .step | .reset | .loadProgram _ | .writeKey _ _ => true
  | .decodeAndExecute _ => false

/-- A session: operations one after another. A fault returned to the host (R189) leaves the state as it was; a refusal ends
what the spec gives a meaning. -/
def performAll : List Operation → State → Option State
  | [], s => some s
  | o :: os, s =>
    match perform o s with
    | .next t => performAll os t
    | .fault _ => performAll os s
    | .refused _ => none

end Sys2Proof.Machine
end

