-- ==== Sys2Proof/Certificates/Slice0/Obligations.lean ====
section
/-! DEFINITION. The statements for the provers, one per obligation. Each docstring cites the rule or section of spec/ it
formalises. In every statement a state is written out as a record update, so the frame is part of it: what the update does not
name is unchanged, memory byte for byte. -/

open Sys2Proof Sys2Proof.Machine

/-! ### Encoding -/

/-- spec/30_encoding.md sections 1 and 4: decoding an encoded instruction gives it back, with every operand at every value. -/
def Obligations.DecodeInvertsEncode : Prop := ∀ i : Instr, decode (encode i) = .ok i

/-- spec/30_encoding.md section 3: a word that decodes to an instruction is that instruction's one word. -/
def Obligations.EncodeInvertsDecode : Prop := ∀ (w : Word) (i : Instr), decode w = .ok i → encode i = w

/-- spec/30_encoding.md R75, with the masks of decision D15 (log 11): every word either matches no row and is rejected by name
with that exact word, or decodes to an instruction whose row is the only one of the table that accepts the word. -/
def Obligations.DecodeSelectsOneRowOrFails : Prop :=
  ∀ w : Word,
    (wordWellFormed w = false ∧ decode w = .error (.unrecognizedOpcode w)) ∨
    (∃ i : Instr, decode w = .ok i ∧ i.row ∈ opcodeTable ∧ ∀ r ∈ opcodeTable, r.accepts w = true ↔ r = i.row)

/-- spec/30_encoding.md R76's table by major class, with the masks of decision D15 (log 11): which words are illegal. -/
def Obligations.IllegalWordsByClass : Prop :=
  ∀ w : Word, decode w = .error (.unrecognizedOpcode w) ↔
    (fieldOp w = 0x0#4 ∧ w ≠ 0x00E0#16 ∧ w ≠ 0x00EE#16) ∨ fieldOp w = 0x5#4 ∨ fieldOp w = 0xB#4 ∨
    ((fieldOp w = 0x8#4 ∨ fieldOp w = 0x9#4) ∧ fieldN w ≠ 0x0#4) ∨
    (fieldOp w = 0xE#4 ∧ fieldKk w ≠ 0x9E#8 ∧ fieldKk w ≠ 0xA1#8) ∨
    (fieldOp w = 0xF#4 ∧ fieldKk w ≠ 0x07#8 ∧ fieldKk w ≠ 0x15#8 ∧ fieldKk w ≠ 0x1E#8)

/-- spec/30_encoding.md section 1: an instruction is exactly two bytes, the more significant first, and takes nothing from the
bytes that follow. -/
def Obligations.DecodeBytesReadsTwoBytes : Prop :=
  (∀ (i : Instr) (rest : List Byte), decodeBytes (encodeBytes i ++ rest) = .ok (i, rest)) ∧
  (∀ (hi lo : Byte) (rest : List Byte), decode (hi ++ lo) = .error (.unrecognizedOpcode (hi ++ lo)) →
    decodeBytes (hi :: lo :: rest) = .error (.unrecognizedOpcode (hi ++ lo)))

/-- spec/95_test_vectors.md T-DEC: words written out from the encodings decode to the instructions they stand for. -/
def Obligations.SampleWordsDecode : Prop :=
  decode 0x00E0#16 = .ok .cls ∧ decode 0x1FFF#16 = .ok (.jpNnn 0xFFF#12) ∧ decode 0x3FFF#16 = .ok (.seVxKk 15#4 0xFF#8) ∧
  decode 0x8120#16 = .ok (.ldVxVy 1#4 2#4) ∧ decode 0xAFFF#16 = .ok (.ldINnn 0xFFF#12) ∧
  decode 0xD012#16 = .ok (.drwVxVyN 0#4 1#4 2#4) ∧ decode 0xEFA1#16 = .ok (.sknpVx 15#4) ∧
  decode 0xFF15#16 = .ok (.ldDtVx 15#4) ∧ decode 0xF218#16 = .error (.unrecognizedOpcode 0xF218#16)

/-! ### The step -/

/-- spec/40_step_cycle.md sections 1 and 2: when the two bytes at `pc` decode to an instruction, a step of a running engine is
that instruction's execution followed by the tick; a fault in the handler ends the step without a tick (decision D11, log 4). -/
def Obligations.StepRunsDecodedInstruction : Prop :=
  ∀ (s : State) (i : Instr), s.Running → s.pc.toNat ≤ 0x0FFE →
    decode (Memory.byteAt s.mem s.pc.toNat ++ Memory.byteAt s.mem (s.pc.toNat + 1)) = .ok i →
    step s =
      match exec i s with
      | .next t =>
        match t.faultInfo with
        | none => .next (timerTick t).1
        | some _ => .next t
      | .fault f => .fault f
      | .refused r => .refused r

/-- spec/40_step_cycle.md R94: the tick follows every handler that completed without a fault, whatever the instruction was; each
timer goes down by one and a timer that is 0 stays 0; `beep` is emitted when the sound timer is 1 before the tick. -/
def Obligations.TimersTickAfterEveryCompletedHandler : Prop :=
  ∀ (s t : State) (w : Word) (i : Instr), s.Running → fetch s = .ok w → decode w = .ok i → exec i s = .next t → t.Running →
    step s = .next { t with
      dt := if t.dt = 0x00#8 then 0x00#8 else t.dt - 0x01#8
      st := if t.st = 0x00#8 then 0x00#8 else t.st - 0x01#8 } ∧
    ((cycle s).beep = true ↔ t.st = 0x01#8)

/-- spec/40_step_cycle.md section 2 (the form of the output is decision D21, log 5): a step emits `beep` exactly when it
completes without a fault and the sound timer was 1. -/
def Obligations.BeepExactlyWhenSoundTimerIsOne : Prop :=
  ∀ s : State, (cycle s).beep = true ↔ s.Running ∧ Succeeds (step s) ∧ s.st = 0x01#8

/-- spec/20_memory.md section 2 and spec/60_exceptions.md section 1 (the datum is decision D14, the latch D11; log 4, log 11): a
fetch above 0x0FFE faults with the address of the byte out of range and changes nothing but the latch. -/
def Obligations.FetchPastTheEndFaults : Prop :=
  ∀ s : State, s.Running → 0x0FFE < s.pc.toNat →
    step s = .next { s with
      faultInfo := some (.outOfBoundsMemoryAccess (if s.pc.toNat = 0x0FFF then 0x1000 else s.pc.toNat)) } ∧
    (cycle s).beep = false

/-- spec/60_exceptions.md section 1 (the latch is decision D11, log 4): an illegal word raises `UnrecognizedOpcode` with that
word; nothing else changes and no timer ticks. -/
def Obligations.IllegalWordFaults : Prop :=
  ∀ (s : State) (w : Word), s.Running → fetch s = .ok w → wordWellFormed w = false →
    step s = .next { s with faultInfo := some (.unrecognizedOpcode w) } ∧ (cycle s).beep = false

/-- spec/10_state.md section 10 and spec/92_eei_decisions.md D11 (the spec's own decision, log 4): on a faulted engine `step` and
`decode_and_execute` change nothing, emit no `beep` and report the same fault. -/
def Obligations.FaultedEngineIsFrozen : Prop :=
  ∀ (s : State) (f : Fault) (w : Word), s.faultInfo = some f →
    step s = .next s ∧ (cycle s).beep = false ∧ (cycle s).report = some f ∧
    (decodeAndExecute w s).outcome = .next s ∧ (decodeAndExecute w s).report = some f

/-- spec/40_step_cycle.md section 4 and spec/92_eei_decisions.md D11 (log 4): when the handler faults the step ends with the
latch set and reported, `pc` at the faulting instruction, both timers as they were and no `beep`. -/
def Obligations.FaultSkipsTickAndKeepsPc : Prop :=
  ∀ (s : State) (w : Word) (i : Instr) (t : State) (f : Fault), s.Running → fetch s = .ok w → decode w = .ok i →
    exec i s = .next t → t.faultInfo = some f →
    step s = .next t ∧ t.pc = s.pc ∧ t.dt = s.dt ∧ t.st = s.st ∧ (cycle s).beep = false ∧ (cycle s).report = some f

/-- spec/40_step_cycle.md section 3 and spec/60_exceptions.md section 1 (that a fault is a next state with the latch set is
decision D11, log 4): `decode_and_execute` runs the handler of its word with no fetch and no tick; on an illegal word it raises
`UnrecognizedOpcode` with that word and changes nothing else; and a step is it on the fetched word followed by the end of a
step. -/
def Obligations.DirectEntryRunsHandlerWithoutTick : Prop :=
  ∀ (s : State) (w : Word), s.Running →
    (∀ i, decode w = .ok i → (decodeAndExecute w s).outcome = exec i s ∧ (decodeAndExecute w s).beep = false) ∧
    (wordWellFormed w = false →
      (decodeAndExecute w s).outcome = .next { s with faultInfo := some (.unrecognizedOpcode w) } ∧
      (decodeAndExecute w s).report = some (.unrecognizedOpcode w) ∧ (decodeAndExecute w s).beep = false) ∧
    (fetch s = .ok w → cycle s = finishStep (decodeAndExecute w s).outcome)

/-! ### Control transfer -/

/-- spec/41_flow.md RET (the check is decision D4, log 11): pop the stack and continue two bytes after the call site; the slot keeps
its value. -/
def Obligations.ReturnPopsTheCallSite : Prop :=
  decode 0x00EE#16 = .ok .ret ∧
  ∀ (s : State) (j : Fin 16) (p : Fin 17), s.sp.val = j.val + 1 → p.val = j.val → (s.stack[j]).toNat + 2 ≤ 0xFFFF →
    exec .ret s = .next { s with sp := p, pc := s.stack[j] + 2#16 }

/-- spec/41_flow.md and spec/92_eei_decisions.md D3, D4 (the spec's own decisions, log 11): `RET` with no slot in use and `CALL`
with all 16 in use fault and write nothing but the latch. -/
def Obligations.StackBoundsFault : Prop :=
  (∀ s : State, s.sp.val = 0 → exec .ret s = .next { s with faultInfo := some .stackUnderflow }) ∧
  (∀ (nnn : Addr12) (s : State), s.sp.val = 16 →
    exec (.callNnn nnn) s = .next { s with faultInfo := some .stackOverflow })

/-- spec/41_flow.md R111: `pc` takes the zero-extended address; nothing else changes, whatever the address; 0xFFF is accepted, and
the next fetch then faults. -/
def Obligations.JumpSetsPc : Prop :=
  ∀ (nnn : Addr12) (s : State),
    decode (0x1#4 ++ nnn) = .ok (.jpNnn nnn) ∧ exec (.jpNnn nnn) s = .next { s with pc := 0x0#4 ++ nnn } ∧
    (nnn = 0xFFF#12 → ∃ a : Nat, fetch { s with pc := 0x0#4 ++ nnn } = .error (.outOfBoundsMemoryAccess a))

/-- spec/41_flow.md CALL (the check is decision D3, log 11): the slot at `sp` takes the address of this `CALL` itself. -/
def Obligations.CallPushesItsOwnAddress : Prop :=
  ∀ (nnn : Addr12) (s : State) (j : Fin 16) (p : Fin 17), s.sp.val = j.val → p.val = j.val + 1 →
    decode (0x2#4 ++ nnn) = .ok (.callNnn nnn) ∧
    exec (.callNnn nnn) s = .next { s with stack := s.stack.set j.val s.pc j.isLt, sp := p, pc := 0x0#4 ++ nnn }

/-! ### Skips on registers -/

/-- spec/42_skip.md R120: four bytes on when the register holds the immediate, two otherwise; nothing else changes. After a skip
taken at 0x0FFE the next fetch faults. -/
def Obligations.SkipIfEqualImmediate : Prop :=
  ∀ (x : Nibble) (kk : Byte) (s : State),
    decode (0x3#4 ++ x ++ kk) = .ok (.seVxKk x kk) ∧
    (s.readV x = kk → s.pc.toNat + 4 ≤ 0xFFFF → exec (.seVxKk x kk) s = .next { s with pc := s.pc + 4#16 }) ∧
    (s.readV x ≠ kk → s.pc.toNat + 2 ≤ 0xFFFF → exec (.seVxKk x kk) s = .next { s with pc := s.pc + 2#16 }) ∧
    (s.pc = 0x0FFE#16 → ∃ a : Nat, fetch { s with pc := s.pc + 4#16 } = .error (.outOfBoundsMemoryAccess a))

/-- spec/42_skip.md R121: four bytes on when the register differs from the immediate, two otherwise; nothing else changes. In any
state exactly one of the two skips on an immediate is taken. -/
def Obligations.SkipIfNotEqualImmediate : Prop :=
  ∀ (x : Nibble) (kk : Byte) (s : State),
    decode (0x4#4 ++ x ++ kk) = .ok (.sneVxKk x kk) ∧
    (s.readV x ≠ kk → s.pc.toNat + 4 ≤ 0xFFFF → exec (.sneVxKk x kk) s = .next { s with pc := s.pc + 4#16 }) ∧
    (s.readV x = kk → s.pc.toNat + 2 ≤ 0xFFFF → exec (.sneVxKk x kk) s = .next { s with pc := s.pc + 2#16 }) ∧
    (∀ t u : State, exec (.seVxKk x kk) s = .next t → exec (.sneVxKk x kk) s = .next u →
      (t.pc = s.pc + 4#16 ↔ ¬ u.pc = s.pc + 4#16)) ∧
    (s.pc = 0x0FFE#16 → ∃ a : Nat, fetch { s with pc := s.pc + 4#16 } = .error (.outOfBoundsMemoryAccess a))

/-- spec/42_skip.md SNE Vx,Vy: four bytes on when the registers differ, two otherwise, so never for `x` = `y`; a word of class 9 with
another low nibble is illegal (decision D15, log 11). -/
def Obligations.SkipIfRegistersDiffer : Prop :=
  ∀ (x y : Nibble) (s : State),
    decode (0x9#4 ++ x ++ y ++ 0x0#4) = .ok (.sneVxVy x y) ∧
    (∀ n : Nibble, n ≠ 0x0#4 →
      decode (0x9#4 ++ x ++ y ++ n) = .error (.unrecognizedOpcode (0x9#4 ++ x ++ y ++ n))) ∧
    (s.readV x ≠ s.readV y → s.pc.toNat + 4 ≤ 0xFFFF → exec (.sneVxVy x y) s = .next { s with pc := s.pc + 4#16 }) ∧
    (s.readV x = s.readV y → s.pc.toNat + 2 ≤ 0xFFFF → exec (.sneVxVy x y) s = .next { s with pc := s.pc + 2#16 })

/-! ### Register loads and arithmetic -/

/-- spec/10_state.md section 1: a register write changes that register and nothing else; none aliases another and none is
hardwired. The statements below name their register writes with it. -/
def Obligations.RegisterWriteChangesOneRegister : Prop :=
  ∀ (s : State) (x : Nibble) (b : Byte),
    (∀ y : Nibble, (s.setV x b).readV y = if x = y then b else s.readV y) ∧ { s.setV x b with v := s.v } = s

/-- spec/43_register.md R130: the immediate goes into `V[x]`, register 15 included. -/
def Obligations.LoadImmediate : Prop :=
  ∀ (x : Nibble) (kk : Byte) (s : State), s.pc.toNat + 2 ≤ 0xFFFF →
    decode (0x6#4 ++ x ++ kk) = .ok (.ldVxKk x kk) ∧
    exec (.ldVxKk x kk) s = .next { s.setV x kk with pc := s.pc + 2#16 }

/-- spec/43_register.md ADD Vx,kk: the sum modulo 256 goes into `V[x]`, then the carry into `VF`. For `x` = 15 the carry stays, by the
spec's decision D9 (log 11). -/
def Obligations.AddImmediateWritesSumThenCarry : Prop :=
  ∀ (x : Nibble) (kk : Byte) (s : State), s.pc.toNat + 2 ≤ 0xFFFF →
    decode (0x7#4 ++ x ++ kk) = .ok (.addVxKk x kk) ∧
    exec (.addVxKk x kk) s = .next
      { (s.setV x (BitVec.ofNat 8 (((s.readV x).toNat + kk.toNat) % 256))).setV 15#4
          (if 256 ≤ (s.readV x).toNat + kk.toNat then 0x01#8 else 0x00#8) with pc := s.pc + 2#16 }

/-- spec/43_register.md R132: `V[x]` takes `V[y]`; a word of class 8 with another low nibble is illegal. -/
def Obligations.CopyRegister : Prop :=
  ∀ (x y : Nibble) (s : State), s.pc.toNat + 2 ≤ 0xFFFF →
    decode (0x8#4 ++ x ++ y ++ 0x0#4) = .ok (.ldVxVy x y) ∧
    (∀ n : Nibble, n ≠ 0x0#4 →
      decode (0x8#4 ++ x ++ y ++ n) = .error (.unrecognizedOpcode (0x8#4 ++ x ++ y ++ n))) ∧
    exec (.ldVxVy x y) s = .next { s.setV x (s.readV y) with pc := s.pc + 2#16 }

/-- spec/43_register.md RND Vx,kk (the byte is a free value, decision D17, log 2): one byte is drawn, its AND with `kk` goes into
`V[x]`, and no bit outside `kk` is set whatever the byte. -/
def Obligations.RandomMaskedIntoRegister : Prop :=
  ∀ (x : Nibble) (kk : Byte) (s : State), s.pc.toNat + 2 ≤ 0xFFFF →
    decode (0xC#4 ++ x ++ kk) = .ok (.rndVxKk x kk) ∧
    ∃ r : Byte,
      exec (.rndVxKk x kk) s = .next { s.setV x (kk &&& r) with rndCount := s.rndCount + 1, pc := s.pc + 2#16 } ∧
      r = Config.rand s.rndCount ∧ (kk &&& r) &&& ~~~kk = 0x00#8

/-! ### The index register -/

/-- spec/44_index.md LD I,nnn: `I` takes the zero-extended address. -/
def Obligations.LoadIndex : Prop :=
  ∀ (nnn : Addr12) (s : State), s.pc.toNat + 2 ≤ 0xFFFF →
    decode (0xA#4 ++ nnn) = .ok (.ldINnn nnn) ∧
    exec (.ldINnn nnn) s = .next { s with i := 0x0#4 ++ nnn, pc := s.pc + 2#16 }

/-- spec/44_index.md ADD I,Vx: `I` takes the sum, not reduced to 12 bits; no flag is written. -/
def Obligations.AddToIndex : Prop :=
  ∀ (x : Nibble) (s : State), s.pc.toNat + 2 ≤ 0xFFFF → s.i.toNat + (s.readV x).toNat ≤ 0xFFFF →
    decode (0xF#4 ++ x ++ 0x1E#8) = .ok (.addIVx x) ∧
    exec (.addIVx x) s = .next { s with i := BitVec.ofNat 16 (s.i.toNat + (s.readV x).toNat), pc := s.pc + 2#16 }

/-- spec/44_index.md ADD I,Vx and spec/92_eei_decisions.md D6 (the spec's own decision, log 11): above 0xFFFF it faults with the sum
and writes nothing. -/
def Obligations.AddToIndexOverflowFaults : Prop :=
  ∀ (x : Nibble) (s : State), 0xFFFF < s.i.toNat + (s.readV x).toNat →
    exec (.addIVx x) s = .next { s with faultInfo := some (.indexOverflow (s.i.toNat + (s.readV x).toNat)) }

/-! ### Display -/

/-- spec/45_display.md R150: every framebuffer entry becomes 0 and nothing else but `pc` changes, `VF` included. -/
def Obligations.ClearScreen : Prop :=
  decode 0x00E0#16 = .ok .cls ∧
  ∀ s : State, s.pc.toNat + 2 ≤ 0xFFFF → ∃ f : Frame, (∀ k < 2048, framePixel f k = false) ∧
    exec .cls s = .next { s with fb := f, pc := s.pc + 2#16 }

/-- spec/45_display.md DRW (coordinates sampled before the flag is cleared: decision D10; clear bits unchecked: D7; log 11): a sprite that
fits toggles exactly the pixels its set bits cover, and `VF` says whether one of them was 1. The bit of column `col` is bit `7 - col` of
the row's byte. Said without the drawing loops. -/
def Obligations.DrawTogglesTheSprite : Prop :=
  ∀ (x y n : Nibble) (s : State), s.pc.toNat + 2 ≤ 0xFFFF →
    SpriteFits s.mem s.i (s.readV x).toNat (s.readV y).toNat n.toNat →
    decode (0xD#4 ++ x ++ y ++ n) = .ok (.drwVxVyN x y n) ∧
    (∀ row col : Nat, spriteBit s.mem s.i row col = (Memory.byteAt s.mem (s.i.toNat + row)).getLsbD (7 - col)) ∧
    ∃ f : Frame,
      exec (.drwVxVyN x y n) s = .next
        { s.setV 15#4 (if spriteHits s.mem s.i (s.readV x).toNat (s.readV y).toNat n.toNat s.fb then 0x01#8 else 0x00#8) with
          fb := f, pc := s.pc + 2#16 } ∧
      ∀ k < 2048, framePixel f k =
        (framePixel s.fb k ^^ spriteCovers s.mem s.i (s.readV x).toNat (s.readV y).toNat n.toNat k)

/-- spec/45_display.md DRW and spec/92_eei_decisions.md D12 (log 3, log 11): the first row outside memory faults with its address; `VF` and
the framebuffer become the model's free values, for whatever they are; all else is unchanged. -/
def Obligations.DrawRowOutsideMemoryFaults : Prop :=
  ∀ (x y n : Nibble) (s : State) (row : Nat), row < n.toNat →
    SpriteFits s.mem s.i (s.readV x).toNat (s.readV y).toNat row → 0x0FFF < s.i.toNat + row →
    exec (.drwVxVyN x y n) s = .next { s.setV 15#4 (Config.drwFaultVf s.drwFaultCount) with
      fb := Config.drwFaultFb s.drwFaultCount
      drwFaultCount := s.drwFaultCount + 1
      faultInfo := some (.outOfBoundsMemoryAccess (s.i.toNat + row)) }

/-- spec/45_display.md DRW and spec/92_eei_decisions.md D7, D12 (log 3, log 11): the first set bit outside the grid, in loop order, faults
with its coordinates; there is no wraparound. The bit of column `col` is bit `7 - col` of the row's byte. -/
def Obligations.DrawBitOutsideGridFaults : Prop :=
  ∀ (x y n : Nibble) (s : State) (row col : Nat), row < n.toNat → col < 8 →
    SpriteFits s.mem s.i (s.readV x).toNat (s.readV y).toNat row → s.i.toNat + row ≤ 0x0FFF →
    (Memory.byteAt s.mem (s.i.toNat + row)).getLsbD (7 - col) = true →
    (64 ≤ (s.readV x).toNat + col ∨ 32 ≤ (s.readV y).toNat + row) →
    (∀ c < col, (Memory.byteAt s.mem (s.i.toNat + row)).getLsbD (7 - c) = true →
      (s.readV x).toNat + c < 64 ∧ (s.readV y).toNat + row < 32) →
    exec (.drwVxVyN x y n) s = .next { s.setV 15#4 (Config.drwFaultVf s.drwFaultCount) with
      fb := Config.drwFaultFb s.drwFaultCount
      drwFaultCount := s.drwFaultCount + 1
      faultInfo := some (.framebufferOutOfBounds ((s.readV x).toNat + col) ((s.readV y).toNat + row)) }

/-- spec/45_display.md DRW and the collision example of section DRW: drawing the same sprite twice at the same place restores the
framebuffer; from a clear framebuffer a sprite with a set bit (bit `7 - col` of a row's byte, for column `col`) gives `VF` 0 and
then 1. -/
def Obligations.DrawingTwiceRestoresTheFramebuffer : Prop :=
  ∀ (x y n : Nibble) (s : State), x ≠ 15#4 → y ≠ 15#4 → s.pc.toNat + 4 ≤ 0xFFFF →
    SpriteFits s.mem s.i (s.readV x).toNat (s.readV y).toNat n.toNat →
    ∃ t u : State, exec (.drwVxVyN x y n) s = .next t ∧ exec (.drwVxVyN x y n) t = .next u ∧ u.fb = s.fb ∧
      ((∀ k < 2048, framePixel s.fb k = false) →
        (∃ row < n.toNat, ∃ col < 8, (Memory.byteAt s.mem (s.i.toNat + row)).getLsbD (7 - col) = true) →
        t.readV 15#4 = 0x00#8 ∧ u.readV 15#4 = 0x01#8)

/-! ### Keys and the delay timer -/

/-- spec/46_key.md SKP: the key number is the contents of `V[x]`, below 16. -/
def Obligations.SkipIfKeyPressed : Prop :=
  ∀ (x : Nibble) (s : State), (s.readV x).toNat < 16 →
    decode (0xE#4 ++ x ++ 0x9E#8) = .ok (.skpVx x) ∧
    (s.keyDown (s.readV x).toNat = true → s.pc.toNat + 4 ≤ 0xFFFF →
      exec (.skpVx x) s = .next { s with pc := s.pc + 4#16 }) ∧
    (s.keyDown (s.readV x).toNat = false → s.pc.toNat + 2 ≤ 0xFFFF →
      exec (.skpVx x) s = .next { s with pc := s.pc + 2#16 })

/-- spec/46_key.md SKNP: as `SKP` with the condition inverted. -/
def Obligations.SkipIfKeyNotPressed : Prop :=
  ∀ (x : Nibble) (s : State), (s.readV x).toNat < 16 →
    decode (0xE#4 ++ x ++ 0xA1#8) = .ok (.sknpVx x) ∧
    (s.keyDown (s.readV x).toNat = false → s.pc.toNat + 4 ≤ 0xFFFF →
      exec (.sknpVx x) s = .next { s with pc := s.pc + 4#16 }) ∧
    (s.keyDown (s.readV x).toNat = true → s.pc.toNat + 2 ≤ 0xFFFF →
      exec (.sknpVx x) s = .next { s with pc := s.pc + 2#16 })

/-- spec/46_key.md and spec/92_eei_decisions.md D8 (the spec's own decision, log 11): a key number of 16 or more faults in both skips,
with the register's value; it is not masked. -/
def Obligations.KeyNumberOutOfRangeFaults : Prop :=
  ∀ (x : Nibble) (s : State), 16 ≤ (s.readV x).toNat →
    exec (.skpVx x) s = .next { s with faultInfo := some (.keyIndexOutOfRange (s.readV x)) } ∧
    exec (.sknpVx x) s = .next { s with faultInfo := some (.keyIndexOutOfRange (s.readV x)) }

/-- spec/47_timer.md LD Vx,DT: the register takes the delay timer before the tick, and after the whole step the timer is one less, or
0. -/
def Obligations.LoadFromDelayTimer : Prop :=
  ∀ (x : Nibble) (s : State), s.pc.toNat + 2 ≤ 0xFFFF →
    decode (0xF#4 ++ x ++ 0x07#8) = .ok (.ldVxDt x) ∧
    exec (.ldVxDt x) s = .next { s.setV x s.dt with pc := s.pc + 2#16 } ∧
    (s.Running → fetch s = .ok (0xF#4 ++ x ++ 0x07#8) → ∃ t : State, step s = .next t ∧
      t.readV x = s.dt ∧ t.dt.toNat = s.dt.toNat - 1)

/-- spec/47_timer.md LD DT,Vx: the delay timer takes the register; after the whole step it holds one less than the register, or 0, and
through the direct entry it holds the register. -/
def Obligations.LoadDelayTimer : Prop :=
  ∀ (x : Nibble) (s : State), s.pc.toNat + 2 ≤ 0xFFFF →
    decode (0xF#4 ++ x ++ 0x15#8) = .ok (.ldDtVx x) ∧
    exec (.ldDtVx x) s = .next { s with dt := s.readV x, pc := s.pc + 2#16 } ∧
    (s.Running → fetch s = .ok (0xF#4 ++ x ++ 0x15#8) → ∃ t : State, step s = .next t ∧
      t.dt.toNat = (s.readV x).toNat - 1)

/-! ### What every instruction does and does not do -/

/-- spec/40_step_cycle.md sections 1 and 6: every handler that completes leaves in `pc` the target the section names for it; a handler
stops without a meaning only for a target above 0xFFFF, and a target above 0xFFFF never completes (decision D16, log 6). -/
def Obligations.EveryHandlerSetsItsTarget : Prop :=
  ∀ (i : Instr) (s : State), s.Running →
    (∀ t, exec i s = .next t → t.Running → t.pc.toNat = i.target s) ∧
    (∀ r, exec i s = .refused r → r = .pcOverflow ∧ 0xFFFF < i.target s) ∧
    (0xFFFF < i.target s → ¬ Succeeds (exec i s))

/-- spec/10_state.md sections 1, 2 and 4: a handler leaves every general register alone but the one its `x` field writes and, for
`ADD Vx,kk` and `DRW`, `VF`; and it leaves `I` alone unless it is `LD I,nnn` or `ADD I,Vx`. -/
def Obligations.RegisterFrame : Prop :=
  (∀ (i : Instr) (s t : State) (r : Nibble), exec i s = .next t →
    i.destination ≠ some r → (i.writesFlag = true → r ≠ 15#4) → t.readV r = s.readV r) ∧
  (∀ (i : Instr) (s t : State), i.writesIndex = false → exec i s = .next t → t.i = s.i)

/-- spec/10_state.md section 5: no instruction other than `CALL` and `RET` reads or writes the stack or `sp`: with another stack it does
the same and leaves that stack as it was. The two runs compared are given the same free values, which is the model's choice and
no statement of the spec: the same byte for `RND` (log 2), the same `VF` and framebuffer after a faulting `DRW` (log 3). -/
def Obligations.OnlyCallAndRetTouchTheStack : Prop :=
  ∀ (i : Instr) (s : State) (k : Vector Word 16) (p : Fin 17), i.usesStack = false →
    exec i { s with stack := k, sp := p } = mapNext (fun t => { t with stack := k, sp := p }) (exec i s)

/-- spec/10_state.md sections 6 and 13: no instruction other than `CLS` and `DRW` reads or writes the framebuffer. The two runs
compared are given the same byte for `RND`, which is the model's choice and no statement of the spec (log 2). -/
def Obligations.OnlyClsAndDrwTouchTheFramebuffer : Prop :=
  ∀ (i : Instr) (s : State) (f : Frame), i.usesFrame = false →
    exec i { s with fb := f } = mapNext (fun t => { t with fb := f }) (exec i s)

/-- spec/10_state.md section 8: no instruction writes the key state and only `SKP` and `SKNP` read it. The two runs the first clause
compares are given the same free values, which is the model's choice and no statement of the spec: the same byte for `RND`
(log 2), the same `VF` and framebuffer after a faulting `DRW` (log 3). -/
def Obligations.OnlyKeySkipsReadTheKeys : Prop :=
  (∀ (i : Instr) (s : State) (k : BitVec 16), i.usesKeys = false →
    exec i { s with key := k } = mapNext (fun t => { t with key := k }) (exec i s)) ∧
  (∀ (i : Instr) (s t : State), exec i s = .next t → t.key = s.key)

/-- spec/10_state.md section 7: no handler other than `LD Vx,DT` and `LD DT,Vx` reads or writes the delay timer, and none at all the
sound timer. The two runs each clause compares are given the same free values, which is the model's choice and no statement of
the spec: the same byte for `RND` (log 2), the same `VF` and framebuffer after a faulting `DRW` (log 3). -/
def Obligations.HandlersTouchTimersOnlyThroughDelayLoads : Prop :=
  (∀ (i : Instr) (s : State) (b : Byte), exec i { s with st := b } = mapNext (fun t => { t with st := b }) (exec i s)) ∧
  (∀ (i : Instr) (s : State) (b : Byte), i.usesDelay = false →
    exec i { s with dt := b } = mapNext (fun t => { t with dt := b }) (exec i s))

/-- spec/20_memory.md section 5: no instruction writes memory, and only `DRW` reads it; a whole step changes no memory and no key.
The two runs the second clause compares are given the same byte for `RND`, which is the model's choice and no statement of the
spec (log 2). -/
def Obligations.NoInstructionWritesMemory : Prop :=
  (∀ (i : Instr) (s t : State), exec i s = .next t → t.mem = s.mem) ∧
  (∀ (i : Instr) (s : State) (m : List Host.Cell), i.isDraw = false →
    exec i { s with mem := m } = mapNext (fun t => { t with mem := m }) (exec i s)) ∧
  (∀ s t : State, step s = .next t → t.mem = s.mem ∧ t.key = s.key)

/-- spec/43_register.md RND: exactly one byte is drawn per completed `RND` and none by any other instruction (log 2). -/
def Obligations.RandomByteDrawnByRndOnly : Prop :=
  ∀ (i : Instr) (s t : State), exec i s = .next t → t.rndCount = if i.drawsRandom then s.rndCount + 1 else s.rndCount

/-- spec/60_exceptions.md section 2 (precision is decision D12, log 11): a fault of any instruction but `DRW` leaves the whole state as it
was, apart from the latch. -/
def Obligations.FaultsArePreciseExceptInDraw : Prop :=
  ∀ (i : Instr) (s t : State) (f : Fault), s.Running → i.isDraw = false → exec i s = .next t → t.faultInfo = some f →
    t = { s with faultInfo := some f }

/-- spec/60_exceptions.md section 2 (a fault of an instruction is a latched next state: decision D11, log 4): twelve instructions
cannot fault once decoded, and neither an instruction nor a step ever ends in the outcome `fault`. -/
def Obligations.TwelveInstructionsCannotFault : Prop :=
  (∀ (i : Instr) (s t : State), s.Running → i.canFault = false → exec i s = .next t → t.Running) ∧
  (∀ (i : Instr) (s : State) (f : Fault), exec i s ≠ .fault f) ∧
  (∀ (s : State) (f : Fault), step s ≠ .fault f)

/-! ### Invariants -/

/-- spec/40_step_cycle.md section 6: the bound on `pc` and on every stack slot is kept by every step, from every state that meets it. -/
def Obligations.StepKeepsPcAndStackBounded : Prop :=
  ∀ s t : State, s.Bounded → step s = .next t → t.Bounded

/-- spec/40_step_cycle.md section 6: no 16-bit overflow of `pc` can occur: from every bounded state a step answers a next state, never a
stop without meaning. -/
def Obligations.BoundedStepAlwaysAnswers : Prop := ∀ s : State, s.Bounded → ∃ t : State, step s = .next t

/-- spec/10_state.md section 14: the reset state meets the invariants. -/
def Obligations.ResetMeetsTheInvariants : Prop :=
  State.reset.Running ∧ State.reset.Bounded ∧ State.reset.Silent ∧ State.reset.Canonical

/-- spec/10_state.md section 7: nothing makes the sound timer nonzero: every operation keeps it at 0, and while it is 0 no step emits
`beep`. -/
def Obligations.SoundTimerStaysSilent : Prop :=
  (∀ (o : Operation) (s t : State), s.Silent → perform o s = .next t → t.Silent) ∧
  (∀ s : State, s.Silent → (cycle s).beep = false)

/-- Log 1 (the model's own form of memory): every operation of the host interface keeps memory in canonical form. -/
def Obligations.EveryOperationKeepsMemoryCanonical : Prop :=
  ∀ (o : Operation) (s t : State), s.Canonical → perform o s = .next t → t.Canonical

/-- spec/40_step_cycle.md section 6 and spec/10_state.md section 7: from every state that is bounded, silent and canonical, reachable
or not, a step, a reset, a load or a key write is never refused and leaves such a state; so every session of them has a meaning
from reset and ends in such a state. The canonical form of memory is the model's own (log 1), and that a load too large leaves
everything as it was is the spec's decision D19 (log 11). -/
def Obligations.EverySessionFromResetHasAMeaning : Prop :=
  (∀ (o : Operation) (s : State), o.ordinary = true → s.Bounded → s.Silent → s.Canonical →
    (∀ r : Refusal, perform o s ≠ .refused r) ∧
    (∀ t : State, perform o s = .next t → t.Bounded ∧ t.Silent ∧ t.Canonical)) ∧
  (∀ os : List Operation, (∀ o ∈ os, o.ordinary = true) →
    ∃ t : State, performAll os State.reset = some t ∧ t.Bounded ∧ t.Silent ∧ t.Canonical)

/-! ### Memory and the host -/

/-- spec/20_memory.md R51: a byte read gives the byte at an address from 0 to 0xFFF and faults, unmasked, at any other; a host read
changes nothing, so a second one gives the same. -/
def Obligations.ReadByteInRangeOrFaults : Prop :=
  ∀ (a : Nat) (s : State),
    (a ≤ 0xFFF → hostReadByte a s = .ok (Memory.byteAt s.mem a)) ∧
    (0xFFF < a → hostReadByte a s = .error (.outOfBoundsMemoryAccess a))

/-- spec/20_memory.md sections 2 and 3 (the datum is decision D14, log 11): a word read is big-endian, needs no alignment, and faults from
0xFFF on. -/
def Obligations.ReadWordIsBigEndian : Prop :=
  ∀ (a : Nat) (s : State),
    (a ≤ 0xFFE → hostReadWord a s = .ok (Memory.byteAt s.mem a ++ Memory.byteAt s.mem (a + 1))) ∧
    (a = 0xFFF → hostReadWord a s = .error (.outOfBoundsMemoryAccess 0x1000)) ∧
    (0xFFF < a → hostReadWord a s = .error (.outOfBoundsMemoryAccess a))

/-- spec/20_memory.md section 7 (nothing is copied by a load that fails: decision D19, log 11): a load copies the image to 0x200 upward, leaves
every other byte, and touches no engine state; an image above 0x0E00 bytes is a fault to the host. -/
def Obligations.LoadCopiesTheImage : Prop :=
  ∀ (bytes : List Byte) (s : State),
    (bytes.length ≤ 0x0E00 → ∃ m : List Host.Cell, loadProgram bytes s = .next { s with mem := m } ∧
      ∀ a < 4096, Memory.byteAt m a =
        if 0x200 ≤ a ∧ a < 0x200 + bytes.length then bytes.getD (a - 0x200) 0x00#8 else Memory.byteAt s.mem a) ∧
    (0x0E00 < bytes.length → loadProgram bytes s = .fault (.programTooLarge bytes.length))

/-- spec/70_reset_and_hazards.md section 1 and spec/10_state.md section 14 (that reset clears the latch is decision D11, D20; log 11): what a
reset leaves, from every state; it does not touch memory, and the counters of the model's free values go on (log 10). -/
def Obligations.ResetLeavesTheStatedValues : Prop :=
  ∀ s : State, ∃ t : State, perform .reset s = .next t ∧
    (∀ x : Nibble, t.readV x = 0x00#8) ∧ t.pc = 0x0200#16 ∧ t.i = 0x0000#16 ∧ t.sp.val = 0 ∧
    (∀ j : Fin 16, t.stack[j] = 0x0000#16) ∧ (∀ k < 2048, framePixel t.fb k = false) ∧ t.dt = 0x00#8 ∧ t.st = 0x00#8 ∧
    (∀ k < 16, t.keyDown k = false) ∧ t.faultInfo = none ∧ t.mem = s.mem ∧
    t.rndCount = s.rndCount ∧ t.drwFaultCount = s.drwFaultCount

/-- spec/10_state.md section 8: the host writes one key and nothing else. -/
def Obligations.KeyWriteChangesOneKey : Prop :=
  ∀ (k : Nibble) (pressed : Bool) (s : State), ∃ q : BitVec 16, writeKey k pressed s = { s with key := q } ∧
    ∀ j < 16, q.getLsbD j = if j = k.toNat then pressed else s.keyDown j
end

