-- ==== Sys2Proof/Laws/Fields.lean ====
section
/-! SUPPORT. The fields of an assembled word (spec/30_encoding.md R71, R72): each format gives back the operands it was made of. -/

namespace Sys2Proof

/-- The bits of a word made of a class and an address. -/
theorem bit_nnn (o : Nibble) (nnn : Addr12) (j : Nat) :
    BitVec.getLsbD (w := 16) (o ++ nnn) j = if j < 12 then nnn.getLsbD j else o.getLsbD (j - 12) :=
  BitVec.getLsbD_append

/-- The bits of a word made of a class, `x` and `kk`. -/
theorem bit_xkk (o x : Nibble) (kk : Byte) (j : Nat) :
    BitVec.getLsbD (w := 16) (o ++ x ++ kk) j =
      if j < 8 then kk.getLsbD j else if j - 8 < 4 then x.getLsbD (j - 8) else o.getLsbD (j - 8 - 4) := by
  refine (BitVec.getLsbD_append (x := o ++ x) (y := kk)).trans ?_
  rw [BitVec.getLsbD_append]

/-- The bits of a word made of four nibbles. -/
theorem bit_xyn (o x y n : Nibble) (j : Nat) :
    BitVec.getLsbD (w := 16) (o ++ x ++ y ++ n) j =
      if j < 4 then n.getLsbD j else if j - 4 < 4 then y.getLsbD (j - 4)
      else if j - 4 - 4 < 4 then x.getLsbD (j - 4 - 4) else o.getLsbD (j - 4 - 4 - 4) := by
  refine (BitVec.getLsbD_append (x := o ++ x ++ y) (y := n)).trans ?_
  rw [BitVec.getLsbD_append, BitVec.getLsbD_append]

/-- The bits of two bytes put together. -/
theorem bit_bytes (hi lo : Byte) (j : Nat) :
    BitVec.getLsbD (w := 16) (hi ++ lo) j = if j < 8 then lo.getLsbD j else hi.getLsbD (j - 8) :=
  BitVec.getLsbD_append

section nnn
variable (o : Nibble) (nnn : Addr12)

@[simp] theorem fieldOp_nnn : fieldOp (o ++ nnn) = o := by
  apply BitVec.eq_of_getLsbD_eq; intro j hj
  simp only [fieldOp, BitVec.getLsbD_extractLsb', bit_nnn]
  grind

@[simp] theorem fieldNnn_nnn : fieldNnn (o ++ nnn) = nnn := by
  apply BitVec.eq_of_getLsbD_eq; intro j hj
  simp only [fieldNnn, BitVec.getLsbD_extractLsb', bit_nnn]
  grind

end nnn

section xkk
variable (o x : Nibble) (kk : Byte)

@[simp] theorem fieldOp_xkk : fieldOp (o ++ x ++ kk) = o := by
  apply BitVec.eq_of_getLsbD_eq; intro j hj
  simp only [fieldOp, BitVec.getLsbD_extractLsb', bit_xkk]
  grind

@[simp] theorem fieldX_xkk : fieldX (o ++ x ++ kk) = x := by
  apply BitVec.eq_of_getLsbD_eq; intro j hj
  simp only [fieldX, BitVec.getLsbD_extractLsb', bit_xkk]
  grind

@[simp] theorem fieldKk_xkk : fieldKk (o ++ x ++ kk) = kk := by
  apply BitVec.eq_of_getLsbD_eq; intro j hj
  simp only [fieldKk, BitVec.getLsbD_extractLsb', bit_xkk]
  grind

end xkk

section xyn
variable (o x y n : Nibble)

@[simp] theorem fieldOp_xyn : fieldOp (o ++ x ++ y ++ n) = o := by
  apply BitVec.eq_of_getLsbD_eq; intro j hj
  simp only [fieldOp, BitVec.getLsbD_extractLsb', bit_xyn]
  grind

@[simp] theorem fieldX_xyn : fieldX (o ++ x ++ y ++ n) = x := by
  apply BitVec.eq_of_getLsbD_eq; intro j hj
  simp only [fieldX, BitVec.getLsbD_extractLsb', bit_xyn]
  grind

@[simp] theorem fieldY_xyn : fieldY (o ++ x ++ y ++ n) = y := by
  apply BitVec.eq_of_getLsbD_eq; intro j hj
  simp only [fieldY, BitVec.getLsbD_extractLsb', bit_xyn]
  grind

@[simp] theorem fieldN_xyn : fieldN (o ++ x ++ y ++ n) = n := by
  apply BitVec.eq_of_getLsbD_eq; intro j hj
  simp only [fieldN, BitVec.getLsbD_extractLsb', bit_xyn]
  grind

end xyn

/-- The two bytes of a word, put together again, are the word. -/
theorem wordOfBytes_high_low (w : Word) : wordOfBytes (highByte w) (lowByte w) = w := by
  apply BitVec.eq_of_getLsbD_eq; intro j hj
  simp only [wordOfBytes, highByte, lowByte, bit_bytes, BitVec.getLsbD_extractLsb']
  grind

/-- A word is its class and its 12-bit rest. -/
theorem word_eq_op_nnn (w : Word) : fieldOp w ++ fieldNnn w = w := by
  apply BitVec.eq_of_getLsbD_eq; intro j hj
  simp only [fieldOp, fieldNnn, bit_nnn, BitVec.getLsbD_extractLsb']
  grind

/-- A word is its class, its `x` and its `kk`. -/
theorem word_eq_op_x_kk (w : Word) : fieldOp w ++ fieldX w ++ fieldKk w = w := by
  apply BitVec.eq_of_getLsbD_eq; intro j hj
  simp only [fieldOp, fieldX, fieldKk, bit_xkk, BitVec.getLsbD_extractLsb']
  grind

/-- A word is its four nibbles. -/
theorem word_eq_op_x_y_n (w : Word) : fieldOp w ++ fieldX w ++ fieldY w ++ fieldN w = w := by
  apply BitVec.eq_of_getLsbD_eq; intro j hj
  simp only [fieldOp, fieldX, fieldY, fieldN, bit_xyn, BitVec.getLsbD_extractLsb']
  grind

end Sys2Proof
end

