-- ==== Sys2Proof/Laws/Decode.lean ====
section
/-! SUPPORT. Everything the decoder can do, said once (spec/30_encoding.md R74 to R76): one lemma per row, and the case list. -/

namespace Sys2Proof

/-- A word of another class than 0 is neither `CLS` nor `RET`. -/
theorem ne_special {w : Word} (h : fieldOp w ≠ 0x0#4) : w ≠ 0x00E0#16 ∧ w ≠ 0x00EE#16 := by
  constructor <;> rintro rfl <;> exact h (by decide)

/-- The decoder on a word of another class than 0. -/
theorem decode_of_class {w : Word} (h : fieldOp w ≠ 0x0#4) : decode w =
    if fieldOp w = 0x1#4 then .ok (.jpNnn (fieldNnn w))
    else if fieldOp w = 0x2#4 then .ok (.callNnn (fieldNnn w))
    else if fieldOp w = 0x3#4 then .ok (.seVxKk (fieldX w) (fieldKk w))
    else if fieldOp w = 0x4#4 then .ok (.sneVxKk (fieldX w) (fieldKk w))
    else if fieldOp w = 0x6#4 then .ok (.ldVxKk (fieldX w) (fieldKk w))
    else if fieldOp w = 0x7#4 then .ok (.addVxKk (fieldX w) (fieldKk w))
    else if fieldOp w = 0x8#4 ∧ fieldN w = 0x0#4 then .ok (.ldVxVy (fieldX w) (fieldY w))
    else if fieldOp w = 0x9#4 ∧ fieldN w = 0x0#4 then .ok (.sneVxVy (fieldX w) (fieldY w))
    else if fieldOp w = 0xA#4 then .ok (.ldINnn (fieldNnn w))
    else if fieldOp w = 0xC#4 then .ok (.rndVxKk (fieldX w) (fieldKk w))
    else if fieldOp w = 0xD#4 then .ok (.drwVxVyN (fieldX w) (fieldY w) (fieldN w))
    else if fieldOp w = 0xE#4 ∧ fieldKk w = 0x9E#8 then .ok (.skpVx (fieldX w))
    else if fieldOp w = 0xE#4 ∧ fieldKk w = 0xA1#8 then .ok (.sknpVx (fieldX w))
    else if fieldOp w = 0xF#4 ∧ fieldKk w = 0x07#8 then .ok (.ldVxDt (fieldX w))
    else if fieldOp w = 0xF#4 ∧ fieldKk w = 0x15#8 then .ok (.ldDtVx (fieldX w))
    else if fieldOp w = 0xF#4 ∧ fieldKk w = 0x1E#8 then .ok (.addIVx (fieldX w))
    else .error (.unrecognizedOpcode w) := by
  unfold decode
  rw [if_neg (ne_special h).1, if_neg (ne_special h).2]

theorem decode_cls : decode 0x00E0#16 = .ok .cls := rfl

theorem decode_ret : decode 0x00EE#16 = .ok .ret := by decide

theorem decode_jpNnn {w : Word} (h : fieldOp w = 0x1#4) : decode w = .ok (.jpNnn (fieldNnn w)) := by
  rw [decode_of_class (by rw [h]; decide)]
  simp [h]

theorem decode_callNnn {w : Word} (h : fieldOp w = 0x2#4) : decode w = .ok (.callNnn (fieldNnn w)) := by
  rw [decode_of_class (by rw [h]; decide)]
  simp [h]

theorem decode_seVxKk {w : Word} (h : fieldOp w = 0x3#4) : decode w = .ok (.seVxKk (fieldX w) (fieldKk w)) := by
  rw [decode_of_class (by rw [h]; decide)]
  simp [h]

theorem decode_sneVxKk {w : Word} (h : fieldOp w = 0x4#4) : decode w = .ok (.sneVxKk (fieldX w) (fieldKk w)) := by
  rw [decode_of_class (by rw [h]; decide)]
  simp [h]

theorem decode_ldVxKk {w : Word} (h : fieldOp w = 0x6#4) : decode w = .ok (.ldVxKk (fieldX w) (fieldKk w)) := by
  rw [decode_of_class (by rw [h]; decide)]
  simp [h]

theorem decode_addVxKk {w : Word} (h : fieldOp w = 0x7#4) : decode w = .ok (.addVxKk (fieldX w) (fieldKk w)) := by
  rw [decode_of_class (by rw [h]; decide)]
  simp [h]

theorem decode_ldVxVy {w : Word} (h : fieldOp w = 0x8#4) (h' : fieldN w = 0x0#4) : decode w = .ok (.ldVxVy (fieldX w) (fieldY w)) := by
  rw [decode_of_class (by rw [h]; decide)]
  simp [h, h']

theorem decode_sneVxVy {w : Word} (h : fieldOp w = 0x9#4) (h' : fieldN w = 0x0#4) : decode w = .ok (.sneVxVy (fieldX w) (fieldY w)) := by
  rw [decode_of_class (by rw [h]; decide)]
  simp [h, h']

theorem decode_ldINnn {w : Word} (h : fieldOp w = 0xA#4) : decode w = .ok (.ldINnn (fieldNnn w)) := by
  rw [decode_of_class (by rw [h]; decide)]
  simp [h]

theorem decode_rndVxKk {w : Word} (h : fieldOp w = 0xC#4) : decode w = .ok (.rndVxKk (fieldX w) (fieldKk w)) := by
  rw [decode_of_class (by rw [h]; decide)]
  simp [h]

theorem decode_drwVxVyN {w : Word} (h : fieldOp w = 0xD#4) : decode w = .ok (.drwVxVyN (fieldX w) (fieldY w) (fieldN w)) := by
  rw [decode_of_class (by rw [h]; decide)]
  simp [h]

theorem decode_skpVx {w : Word} (h : fieldOp w = 0xE#4) (h' : fieldKk w = 0x9E#8) : decode w = .ok (.skpVx (fieldX w)) := by
  rw [decode_of_class (by rw [h]; decide)]
  simp [h, h']

theorem decode_sknpVx {w : Word} (h : fieldOp w = 0xE#4) (h' : fieldKk w = 0xA1#8) : decode w = .ok (.sknpVx (fieldX w)) := by
  rw [decode_of_class (by rw [h]; decide)]
  simp [h, h']

theorem decode_ldVxDt {w : Word} (h : fieldOp w = 0xF#4) (h' : fieldKk w = 0x07#8) : decode w = .ok (.ldVxDt (fieldX w)) := by
  rw [decode_of_class (by rw [h]; decide)]
  simp [h, h']

theorem decode_ldDtVx {w : Word} (h : fieldOp w = 0xF#4) (h' : fieldKk w = 0x15#8) : decode w = .ok (.ldDtVx (fieldX w)) := by
  rw [decode_of_class (by rw [h]; decide)]
  simp [h, h']

theorem decode_addIVx {w : Word} (h : fieldOp w = 0xF#4) (h' : fieldKk w = 0x1E#8) : decode w = .ok (.addIVx (fieldX w)) := by
  rw [decode_of_class (by rw [h]; decide)]
  simp [h, h']

/-- The words that no row accepts, by class (R76). -/
abbrev IllegalWord (w : Word) : Prop :=
  (fieldOp w = 0x0#4 ∧ w ≠ 0x00E0#16 ∧ w ≠ 0x00EE#16) ∨ fieldOp w = 0x5#4 ∨ fieldOp w = 0xB#4 ∨
  (fieldOp w = 0x8#4 ∧ fieldN w ≠ 0x0#4) ∨ (fieldOp w = 0x9#4 ∧ fieldN w ≠ 0x0#4) ∨
  (fieldOp w = 0xE#4 ∧ fieldKk w ≠ 0x9E#8 ∧ fieldKk w ≠ 0xA1#8) ∨
  (fieldOp w = 0xF#4 ∧ fieldKk w ≠ 0x07#8 ∧ fieldKk w ≠ 0x15#8 ∧ fieldKk w ≠ 0x1E#8)

theorem decode_illegal {w : Word} (h : IllegalWord w) : decode w = .error (.unrecognizedOpcode w) := by
  rcases h with ⟨h, h1, h2⟩ | h | h | ⟨h, h1⟩ | ⟨h, h1⟩ | ⟨h, h1, h2⟩ | ⟨h, h1, h2, h3⟩
  · unfold decode
    rw [if_neg h1, if_neg h2]
    simp [h]
  · rw [decode_of_class (by rw [h]; decide)]; simp [h]
  · rw [decode_of_class (by rw [h]; decide)]; simp [h]
  · rw [decode_of_class (by rw [h]; decide)]; simp [h, h1]
  · rw [decode_of_class (by rw [h]; decide)]; simp [h, h1]
  · rw [decode_of_class (by rw [h]; decide)]; simp [h, h1, h2]
  · rw [decode_of_class (by rw [h]; decide)]; simp [h, h1, h2, h3]

/-- There are sixteen classes (R92). -/
theorem class_cases (o : Nibble) :
    o = 0x0#4 ∨ o = 0x1#4 ∨ o = 0x2#4 ∨ o = 0x3#4 ∨ o = 0x4#4 ∨ o = 0x5#4 ∨ o = 0x6#4 ∨ o = 0x7#4 ∨
    o = 0x8#4 ∨ o = 0x9#4 ∨ o = 0xA#4 ∨ o = 0xB#4 ∨ o = 0xC#4 ∨ o = 0xD#4 ∨ o = 0xE#4 ∨ o = 0xF#4 := by
  revert o; decide

/-- Every word is of one of these nineteen kinds: one of the 18 rows, or illegal. -/
theorem decode_cases (w : Word) :
    (w = 0x00E0#16 ∧ decode w = .ok .cls) ∨
    (w = 0x00EE#16 ∧ decode w = .ok .ret) ∨
    (fieldOp w = 0x1#4 ∧ decode w = .ok (.jpNnn (fieldNnn w))) ∨
    (fieldOp w = 0x2#4 ∧ decode w = .ok (.callNnn (fieldNnn w))) ∨
    (fieldOp w = 0x3#4 ∧ decode w = .ok (.seVxKk (fieldX w) (fieldKk w))) ∨
    (fieldOp w = 0x4#4 ∧ decode w = .ok (.sneVxKk (fieldX w) (fieldKk w))) ∨
    (fieldOp w = 0x6#4 ∧ decode w = .ok (.ldVxKk (fieldX w) (fieldKk w))) ∨
    (fieldOp w = 0x7#4 ∧ decode w = .ok (.addVxKk (fieldX w) (fieldKk w))) ∨
    (fieldOp w = 0x8#4 ∧ fieldN w = 0x0#4 ∧ decode w = .ok (.ldVxVy (fieldX w) (fieldY w))) ∨
    (fieldOp w = 0x9#4 ∧ fieldN w = 0x0#4 ∧ decode w = .ok (.sneVxVy (fieldX w) (fieldY w))) ∨
    (fieldOp w = 0xA#4 ∧ decode w = .ok (.ldINnn (fieldNnn w))) ∨
    (fieldOp w = 0xC#4 ∧ decode w = .ok (.rndVxKk (fieldX w) (fieldKk w))) ∨
    (fieldOp w = 0xD#4 ∧ decode w = .ok (.drwVxVyN (fieldX w) (fieldY w) (fieldN w))) ∨
    (fieldOp w = 0xE#4 ∧ fieldKk w = 0x9E#8 ∧ decode w = .ok (.skpVx (fieldX w))) ∨
    (fieldOp w = 0xE#4 ∧ fieldKk w = 0xA1#8 ∧ decode w = .ok (.sknpVx (fieldX w))) ∨
    (fieldOp w = 0xF#4 ∧ fieldKk w = 0x07#8 ∧ decode w = .ok (.ldVxDt (fieldX w))) ∨
    (fieldOp w = 0xF#4 ∧ fieldKk w = 0x15#8 ∧ decode w = .ok (.ldDtVx (fieldX w))) ∨
    (fieldOp w = 0xF#4 ∧ fieldKk w = 0x1E#8 ∧ decode w = .ok (.addIVx (fieldX w))) ∨
    (IllegalWord w ∧ decode w = .error (.unrecognizedOpcode w)) := by
  by_cases hi : IllegalWord w
  · simp [hi, decode_illegal hi]
  · by_cases h0 : fieldOp w = 0x0#4
    · by_cases h1 : w = 0x00E0#16
      · exact .inl ⟨h1, h1 ▸ decode_cls⟩
      · by_cases h2 : w = 0x00EE#16
        · exact .inr (.inl ⟨h2, h2 ▸ decode_ret⟩)
        · exact absurd (.inl ⟨h0, h1, h2⟩) hi
    · rcases class_cases (fieldOp w) with h | h | h | h | h | h | h | h | h | h | h | h | h | h | h | h
      · exact absurd h h0
      · simp [h, decode_jpNnn h]
      · simp [h, decode_callNnn h]
      · simp [h, decode_seVxKk h]
      · simp [h, decode_sneVxKk h]
      · exact absurd (.inr (.inl h)) hi
      · simp [h, decode_ldVxKk h]
      · simp [h, decode_addVxKk h]
      · by_cases hn : fieldN w = 0x0#4
        · simp [h, hn, decode_ldVxVy h hn]
        · exact absurd (show IllegalWord w by simp [IllegalWord, h, hn]) hi
      · by_cases hn : fieldN w = 0x0#4
        · simp [h, hn, decode_sneVxVy h hn]
        · exact absurd (show IllegalWord w by simp [IllegalWord, h, hn]) hi
      · simp [h, decode_ldINnn h]
      · exact absurd (.inr (.inr (.inl h))) hi
      · simp [h, decode_rndVxKk h]
      · simp [h, decode_drwVxVyN h]
      · by_cases k1 : fieldKk w = 0x9E#8
        · simp [h, k1, decode_skpVx h k1]
        · by_cases k2 : fieldKk w = 0xA1#8
          · simp [h, k2, decode_sknpVx h k2]
          · exact absurd (show IllegalWord w by simp [IllegalWord, h, k1, k2]) hi
      · by_cases k1 : fieldKk w = 0x07#8
        · simp [h, k1, decode_ldVxDt h k1]
        · by_cases k2 : fieldKk w = 0x15#8
          · simp [h, k2, decode_ldDtVx h k2]
          · by_cases k3 : fieldKk w = 0x1E#8
            · simp [h, k3, decode_addIVx h k3]
            · exact absurd (show IllegalWord w by simp [IllegalWord, h, k1, k2, k3]) hi

end Sys2Proof
end

