-- ==== Sys2Proof/Laws/State.lean ====
section
/-! SUPPORT. Beside State: one lemma per field per update, each true by rfl, so that no later proof unfolds a record update;
reading a register after writing one; the state after reset. -/

namespace Sys2Proof.Machine

section setPc
variable (s : State) (a : Word)

@[simp] theorem State.setPc_v : (s.setPc a).v = s.v := rfl
@[simp] theorem State.setPc_pc : (s.setPc a).pc = a := rfl
@[simp] theorem State.setPc_i : (s.setPc a).i = s.i := rfl
@[simp] theorem State.setPc_stack : (s.setPc a).stack = s.stack := rfl
@[simp] theorem State.setPc_sp : (s.setPc a).sp = s.sp := rfl
@[simp] theorem State.setPc_fb : (s.setPc a).fb = s.fb := rfl
@[simp] theorem State.setPc_dt : (s.setPc a).dt = s.dt := rfl
@[simp] theorem State.setPc_st : (s.setPc a).st = s.st := rfl
@[simp] theorem State.setPc_key : (s.setPc a).key = s.key := rfl
@[simp] theorem State.setPc_mem : (s.setPc a).mem = s.mem := rfl
@[simp] theorem State.setPc_faultInfo : (s.setPc a).faultInfo = s.faultInfo := rfl
@[simp] theorem State.setPc_rndCount : (s.setPc a).rndCount = s.rndCount := rfl
@[simp] theorem State.setPc_drwFaultCount : (s.setPc a).drwFaultCount = s.drwFaultCount := rfl

end setPc

section setI
variable (s : State) (a : Word)

@[simp] theorem State.setI_v : (s.setI a).v = s.v := rfl
@[simp] theorem State.setI_pc : (s.setI a).pc = s.pc := rfl
@[simp] theorem State.setI_i : (s.setI a).i = a := rfl
@[simp] theorem State.setI_stack : (s.setI a).stack = s.stack := rfl
@[simp] theorem State.setI_sp : (s.setI a).sp = s.sp := rfl
@[simp] theorem State.setI_fb : (s.setI a).fb = s.fb := rfl
@[simp] theorem State.setI_dt : (s.setI a).dt = s.dt := rfl
@[simp] theorem State.setI_st : (s.setI a).st = s.st := rfl
@[simp] theorem State.setI_key : (s.setI a).key = s.key := rfl
@[simp] theorem State.setI_mem : (s.setI a).mem = s.mem := rfl
@[simp] theorem State.setI_faultInfo : (s.setI a).faultInfo = s.faultInfo := rfl
@[simp] theorem State.setI_rndCount : (s.setI a).rndCount = s.rndCount := rfl
@[simp] theorem State.setI_drwFaultCount : (s.setI a).drwFaultCount = s.drwFaultCount := rfl

end setI

section setDt
variable (s : State) (b : Byte)

@[simp] theorem State.setDt_v : (s.setDt b).v = s.v := rfl
@[simp] theorem State.setDt_pc : (s.setDt b).pc = s.pc := rfl
@[simp] theorem State.setDt_i : (s.setDt b).i = s.i := rfl
@[simp] theorem State.setDt_stack : (s.setDt b).stack = s.stack := rfl
@[simp] theorem State.setDt_sp : (s.setDt b).sp = s.sp := rfl
@[simp] theorem State.setDt_fb : (s.setDt b).fb = s.fb := rfl
@[simp] theorem State.setDt_dt : (s.setDt b).dt = b := rfl
@[simp] theorem State.setDt_st : (s.setDt b).st = s.st := rfl
@[simp] theorem State.setDt_key : (s.setDt b).key = s.key := rfl
@[simp] theorem State.setDt_mem : (s.setDt b).mem = s.mem := rfl
@[simp] theorem State.setDt_faultInfo : (s.setDt b).faultInfo = s.faultInfo := rfl
@[simp] theorem State.setDt_rndCount : (s.setDt b).rndCount = s.rndCount := rfl
@[simp] theorem State.setDt_drwFaultCount : (s.setDt b).drwFaultCount = s.drwFaultCount := rfl

end setDt

section setSt
variable (s : State) (b : Byte)

@[simp] theorem State.setSt_v : (s.setSt b).v = s.v := rfl
@[simp] theorem State.setSt_pc : (s.setSt b).pc = s.pc := rfl
@[simp] theorem State.setSt_i : (s.setSt b).i = s.i := rfl
@[simp] theorem State.setSt_stack : (s.setSt b).stack = s.stack := rfl
@[simp] theorem State.setSt_sp : (s.setSt b).sp = s.sp := rfl
@[simp] theorem State.setSt_fb : (s.setSt b).fb = s.fb := rfl
@[simp] theorem State.setSt_dt : (s.setSt b).dt = s.dt := rfl
@[simp] theorem State.setSt_st : (s.setSt b).st = b := rfl
@[simp] theorem State.setSt_key : (s.setSt b).key = s.key := rfl
@[simp] theorem State.setSt_mem : (s.setSt b).mem = s.mem := rfl
@[simp] theorem State.setSt_faultInfo : (s.setSt b).faultInfo = s.faultInfo := rfl
@[simp] theorem State.setSt_rndCount : (s.setSt b).rndCount = s.rndCount := rfl
@[simp] theorem State.setSt_drwFaultCount : (s.setSt b).drwFaultCount = s.drwFaultCount := rfl

end setSt

section setFb
variable (s : State) (f : Frame)

@[simp] theorem State.setFb_v : (s.setFb f).v = s.v := rfl
@[simp] theorem State.setFb_pc : (s.setFb f).pc = s.pc := rfl
@[simp] theorem State.setFb_i : (s.setFb f).i = s.i := rfl
@[simp] theorem State.setFb_stack : (s.setFb f).stack = s.stack := rfl
@[simp] theorem State.setFb_sp : (s.setFb f).sp = s.sp := rfl
@[simp] theorem State.setFb_fb : (s.setFb f).fb = f := rfl
@[simp] theorem State.setFb_dt : (s.setFb f).dt = s.dt := rfl
@[simp] theorem State.setFb_st : (s.setFb f).st = s.st := rfl
@[simp] theorem State.setFb_key : (s.setFb f).key = s.key := rfl
@[simp] theorem State.setFb_mem : (s.setFb f).mem = s.mem := rfl
@[simp] theorem State.setFb_faultInfo : (s.setFb f).faultInfo = s.faultInfo := rfl
@[simp] theorem State.setFb_rndCount : (s.setFb f).rndCount = s.rndCount := rfl
@[simp] theorem State.setFb_drwFaultCount : (s.setFb f).drwFaultCount = s.drwFaultCount := rfl

end setFb

section setKey
variable (s : State) (k : BitVec 16)

@[simp] theorem State.setKey_v : (s.setKey k).v = s.v := rfl
@[simp] theorem State.setKey_pc : (s.setKey k).pc = s.pc := rfl
@[simp] theorem State.setKey_i : (s.setKey k).i = s.i := rfl
@[simp] theorem State.setKey_stack : (s.setKey k).stack = s.stack := rfl
@[simp] theorem State.setKey_sp : (s.setKey k).sp = s.sp := rfl
@[simp] theorem State.setKey_fb : (s.setKey k).fb = s.fb := rfl
@[simp] theorem State.setKey_dt : (s.setKey k).dt = s.dt := rfl
@[simp] theorem State.setKey_st : (s.setKey k).st = s.st := rfl
@[simp] theorem State.setKey_key : (s.setKey k).key = k := rfl
@[simp] theorem State.setKey_mem : (s.setKey k).mem = s.mem := rfl
@[simp] theorem State.setKey_faultInfo : (s.setKey k).faultInfo = s.faultInfo := rfl
@[simp] theorem State.setKey_rndCount : (s.setKey k).rndCount = s.rndCount := rfl
@[simp] theorem State.setKey_drwFaultCount : (s.setKey k).drwFaultCount = s.drwFaultCount := rfl

end setKey

section setMem
variable (s : State) (m : List Host.Cell)

@[simp] theorem State.setMem_v : (s.setMem m).v = s.v := rfl
@[simp] theorem State.setMem_pc : (s.setMem m).pc = s.pc := rfl
@[simp] theorem State.setMem_i : (s.setMem m).i = s.i := rfl
@[simp] theorem State.setMem_stack : (s.setMem m).stack = s.stack := rfl
@[simp] theorem State.setMem_sp : (s.setMem m).sp = s.sp := rfl
@[simp] theorem State.setMem_fb : (s.setMem m).fb = s.fb := rfl
@[simp] theorem State.setMem_dt : (s.setMem m).dt = s.dt := rfl
@[simp] theorem State.setMem_st : (s.setMem m).st = s.st := rfl
@[simp] theorem State.setMem_key : (s.setMem m).key = s.key := rfl
@[simp] theorem State.setMem_mem : (s.setMem m).mem = m := rfl
@[simp] theorem State.setMem_faultInfo : (s.setMem m).faultInfo = s.faultInfo := rfl
@[simp] theorem State.setMem_rndCount : (s.setMem m).rndCount = s.rndCount := rfl
@[simp] theorem State.setMem_drwFaultCount : (s.setMem m).drwFaultCount = s.drwFaultCount := rfl

end setMem

section setV
variable (s : State) (x : Nibble) (b : Byte)

@[simp] theorem State.setV_v : (s.setV x b).v = s.v.set x.toNat b x.isLt := rfl
@[simp] theorem State.setV_pc : (s.setV x b).pc = s.pc := rfl
@[simp] theorem State.setV_i : (s.setV x b).i = s.i := rfl
@[simp] theorem State.setV_stack : (s.setV x b).stack = s.stack := rfl
@[simp] theorem State.setV_sp : (s.setV x b).sp = s.sp := rfl
@[simp] theorem State.setV_fb : (s.setV x b).fb = s.fb := rfl
@[simp] theorem State.setV_dt : (s.setV x b).dt = s.dt := rfl
@[simp] theorem State.setV_st : (s.setV x b).st = s.st := rfl
@[simp] theorem State.setV_key : (s.setV x b).key = s.key := rfl
@[simp] theorem State.setV_mem : (s.setV x b).mem = s.mem := rfl
@[simp] theorem State.setV_faultInfo : (s.setV x b).faultInfo = s.faultInfo := rfl
@[simp] theorem State.setV_rndCount : (s.setV x b).rndCount = s.rndCount := rfl
@[simp] theorem State.setV_drwFaultCount : (s.setV x b).drwFaultCount = s.drwFaultCount := rfl

end setV

section latch
variable (s : State) (f : Fault)

@[simp] theorem State.latch_v : (s.latch f).v = s.v := rfl
@[simp] theorem State.latch_pc : (s.latch f).pc = s.pc := rfl
@[simp] theorem State.latch_i : (s.latch f).i = s.i := rfl
@[simp] theorem State.latch_stack : (s.latch f).stack = s.stack := rfl
@[simp] theorem State.latch_sp : (s.latch f).sp = s.sp := rfl
@[simp] theorem State.latch_fb : (s.latch f).fb = s.fb := rfl
@[simp] theorem State.latch_dt : (s.latch f).dt = s.dt := rfl
@[simp] theorem State.latch_st : (s.latch f).st = s.st := rfl
@[simp] theorem State.latch_key : (s.latch f).key = s.key := rfl
@[simp] theorem State.latch_mem : (s.latch f).mem = s.mem := rfl
@[simp] theorem State.latch_faultInfo : (s.latch f).faultInfo = some f := rfl
@[simp] theorem State.latch_rndCount : (s.latch f).rndCount = s.rndCount := rfl
@[simp] theorem State.latch_drwFaultCount : (s.latch f).drwFaultCount = s.drwFaultCount := rfl

end latch

section others
variable (s : State) (a : Word) (t : State) (x : Nibble) (b : Byte)

@[simp] theorem State.spoilDraw_v : s.spoilDraw.v = s.v.set 15 (Config.drwFaultVf s.drwFaultCount) := rfl
@[simp] theorem State.spoilDraw_pc : s.spoilDraw.pc = s.pc := rfl
@[simp] theorem State.spoilDraw_i : s.spoilDraw.i = s.i := rfl
@[simp] theorem State.spoilDraw_stack : s.spoilDraw.stack = s.stack := rfl
@[simp] theorem State.spoilDraw_sp : s.spoilDraw.sp = s.sp := rfl
@[simp] theorem State.spoilDraw_fb : s.spoilDraw.fb = Config.drwFaultFb s.drwFaultCount := rfl
@[simp] theorem State.spoilDraw_dt : s.spoilDraw.dt = s.dt := rfl
@[simp] theorem State.spoilDraw_st : s.spoilDraw.st = s.st := rfl
@[simp] theorem State.spoilDraw_key : s.spoilDraw.key = s.key := rfl
@[simp] theorem State.spoilDraw_mem : s.spoilDraw.mem = s.mem := rfl
@[simp] theorem State.spoilDraw_faultInfo : s.spoilDraw.faultInfo = s.faultInfo := rfl
@[simp] theorem State.spoilDraw_rndCount : s.spoilDraw.rndCount = s.rndCount := rfl
@[simp] theorem State.spoilDraw_drwFaultCount : s.spoilDraw.drwFaultCount = s.drwFaultCount + 1 := rfl
@[simp] theorem State.engineReset_v : s.engineReset.v = State.reset.v := rfl
@[simp] theorem State.engineReset_pc : s.engineReset.pc = State.reset.pc := rfl
@[simp] theorem State.engineReset_i : s.engineReset.i = State.reset.i := rfl
@[simp] theorem State.engineReset_stack : s.engineReset.stack = State.reset.stack := rfl
@[simp] theorem State.engineReset_sp : s.engineReset.sp = State.reset.sp := rfl
@[simp] theorem State.engineReset_fb : s.engineReset.fb = State.reset.fb := rfl
@[simp] theorem State.engineReset_dt : s.engineReset.dt = State.reset.dt := rfl
@[simp] theorem State.engineReset_st : s.engineReset.st = State.reset.st := rfl
@[simp] theorem State.engineReset_key : s.engineReset.key = State.reset.key := rfl
@[simp] theorem State.engineReset_mem : s.engineReset.mem = s.mem := rfl
@[simp] theorem State.engineReset_faultInfo : s.engineReset.faultInfo = State.reset.faultInfo := rfl
@[simp] theorem State.engineReset_rndCount : s.engineReset.rndCount = s.rndCount := rfl
@[simp] theorem State.engineReset_drwFaultCount : s.engineReset.drwFaultCount = s.drwFaultCount := rfl
@[simp] theorem State.nextRandom_v : s.nextRandom.2.v = s.v := rfl
@[simp] theorem State.nextRandom_pc : s.nextRandom.2.pc = s.pc := rfl
@[simp] theorem State.nextRandom_i : s.nextRandom.2.i = s.i := rfl
@[simp] theorem State.nextRandom_stack : s.nextRandom.2.stack = s.stack := rfl
@[simp] theorem State.nextRandom_sp : s.nextRandom.2.sp = s.sp := rfl
@[simp] theorem State.nextRandom_fb : s.nextRandom.2.fb = s.fb := rfl
@[simp] theorem State.nextRandom_dt : s.nextRandom.2.dt = s.dt := rfl
@[simp] theorem State.nextRandom_st : s.nextRandom.2.st = s.st := rfl
@[simp] theorem State.nextRandom_key : s.nextRandom.2.key = s.key := rfl
@[simp] theorem State.nextRandom_mem : s.nextRandom.2.mem = s.mem := rfl
@[simp] theorem State.nextRandom_faultInfo : s.nextRandom.2.faultInfo = s.faultInfo := rfl
@[simp] theorem State.nextRandom_rndCount : s.nextRandom.2.rndCount = s.rndCount + 1 := rfl
@[simp] theorem State.nextRandom_drwFaultCount : s.nextRandom.2.drwFaultCount = s.drwFaultCount := rfl

@[simp] theorem State.nextRandom_byte : s.nextRandom.1 = Config.rand s.rndCount := rfl

@[simp] theorem State.setVf_eq : s.setVf b = s.setV 15#4 b := rfl

/-- Reading a general register after writing one. -/
@[simp] theorem State.readV_setV (y : Nibble) : (s.setV x b).readV y = if x = y then b else s.readV y := by
  simp only [State.readV, State.setV_v, Vector.getElem_set, BitVec.toNat_inj]

/-- A register reads the same in states with the same register file. -/
theorem State.readV_congr (h : s.v = t.v) : s.readV x = t.readV x := by
  simp only [State.readV, h]

/-- Every general register reads 0 after reset (R33). -/
@[simp] theorem State.reset_readV : State.reset.readV x = 0x00#8 := by
  simp [State.readV, State.reset]

/-- The memory right after reset is in canonical form. -/
theorem State.reset_mem_wf : Memory.wf State.reset.mem = true := rfl

end others

end Sys2Proof.Machine
end

