-- ==== Sys2Proof/Laws/Ops.lean ====
section
/-! SUPPORT. What the shared operations can do, each said once: memory, the new pc, the stack, the tick. -/

namespace Sys2Proof.Machine

/-! ### Memory -/

/-- A byte is readable exactly below 4096 (R51). -/
theorem Memory.readByte_ok {m : List Host.Cell} {a : Nat} (h : a < 4096) : Memory.readByte m a = .ok (Memory.byteAt m a) := by
  simp [Memory.readByte, h]

theorem Memory.readByte_error {m : List Host.Cell} {a : Nat} (h : 4096 ≤ a) :
    Memory.readByte m a = .error (.outOfBoundsMemoryAccess a) := by
  simp [Memory.readByte, h]

/-- A byte read that succeeds was in range and gave `MEM[a]`. -/
theorem Memory.readByte_eq_ok {m : List Host.Cell} {a : Nat} {b : Byte} (h : Memory.readByte m a = .ok b) :
    a < 4096 ∧ b = Memory.byteAt m a := by
  unfold Memory.readByte at h
  split at h
  · exact ⟨‹_›, by simpa using h.symm⟩
  · cases h

/-- A word read that succeeds had both bytes in range, the first the more significant (R52). -/
theorem Memory.readWord_eq_ok {m : List Host.Cell} {a : Nat} {w : Word} (h : Memory.readWord m a = .ok w) :
    a + 1 < 4096 ∧ w = wordOfBytes (Memory.byteAt m a) (Memory.byteAt m (a + 1)) := by
  unfold Memory.readWord at h
  split at h
  · cases h
  · rename_i hi hhi
    split at h
    · cases h
    · rename_i lo hlo
      obtain ⟨-, rfl⟩ := Memory.readByte_eq_ok hhi
      obtain ⟨h1, rfl⟩ := Memory.readByte_eq_ok hlo
      exact ⟨h1, by simpa using h.symm⟩

theorem Memory.readWord_ok {m : List Host.Cell} {a : Nat} (h : a + 1 < 4096) :
    Memory.readWord m a = .ok (wordOfBytes (Memory.byteAt m a) (Memory.byteAt m (a + 1))) := by
  simp only [Memory.readWord, Memory.readByte_ok (show a < 4096 by omega), Memory.readByte_ok h]

/-- Looking a byte up after putting one in. -/
theorem Memory.lookup_insert (m : List Host.Cell) (a c : Nat) (b : Byte) :
    Memory.lookup (Memory.insert m a b) c = if a = c then some b else Memory.lookup m c := by
  induction m with
  | nil => simp [Memory.insert, Memory.lookup]
  | cons e m ih =>
    obtain ⟨k, d⟩ := e
    simp only [Memory.insert]
    split
    · simp [Memory.lookup]
    · split
      · subst_vars
        simp only [Memory.lookup]
        split <;> simp_all
      · simp only [Memory.lookup, ih]
        split
        · have : a ≠ c := by omega
          simp [this]
        · rfl

/-- Reading after a write: the byte written at its address, every other byte as before. -/
theorem Memory.byteAt_write (m : List Host.Cell) (a c : Nat) (b : Byte) :
    Memory.byteAt (Memory.write m a b) c = if a = c ∧ a < 4096 then b else Memory.byteAt m c := by
  unfold Memory.write Memory.byteAt
  by_cases h : a < 4096
  · by_cases hc : a = c
    · subst hc; simp [h, Memory.lookup_insert]
    · simp [h, hc, Memory.lookup_insert]
  · simp [h]

theorem Memory.wfFrom_mono {m : List Host.Cell} {lo lo' : Nat} (hle : lo' ≤ lo) (h : Memory.wfFrom lo m = true) :
    Memory.wfFrom lo' m = true := by
  cases m with
  | nil => rfl
  | cons e m =>
    obtain ⟨a, d⟩ := e
    simp only [Memory.wfFrom, Bool.and_eq_true, decide_eq_true_eq] at h ⊢
    exact ⟨⟨by omega, h.1.2⟩, h.2⟩

theorem Memory.wfFrom_insert {m : List Host.Cell} {lo a : Nat} (b : Byte) (hlo : lo ≤ a) (ha : a < 4096)
    (h : Memory.wfFrom lo m = true) : Memory.wfFrom lo (Memory.insert m a b) = true := by
  induction m generalizing lo with
  | nil => simp [Memory.insert, Memory.wfFrom, hlo, ha]
  | cons e m ih =>
    obtain ⟨c, d⟩ := e
    simp only [Memory.wfFrom, Bool.and_eq_true, decide_eq_true_eq] at h
    simp only [Memory.insert]
    split
    · simp only [Memory.wfFrom, Bool.and_eq_true, decide_eq_true_eq]
      exact ⟨⟨hlo, ha⟩, ⟨by omega, h.1.2⟩, h.2⟩
    · split
      · simp only [Memory.wfFrom, Bool.and_eq_true, decide_eq_true_eq]
        subst_vars
        exact ⟨⟨hlo, ha⟩, h.2⟩
      · simp only [Memory.wfFrom, Bool.and_eq_true, decide_eq_true_eq]
        exact ⟨h.1, ih (by omega) h.2⟩

/-- A write keeps the canonical form. -/
theorem Memory.wf_write {m : List Host.Cell} (a : Nat) (b : Byte) (h : Memory.wf m = true) :
    Memory.wf (Memory.write m a b) = true := by
  unfold Memory.write
  split
  · exact Memory.wfFrom_insert b (Nat.zero_le a) ‹_› h
  · exact h

/-- The copy loop of `load_program` keeps the canonical form. -/
theorem Memory.wf_writeBytes {m : List Host.Cell} (a : Nat) (bs : List Byte) (h : Memory.wf m = true) :
    Memory.wf (Memory.writeBytes m a bs) = true := by
  induction bs generalizing m a with
  | nil => exact h
  | cons b bs ih => exact ih (a + 1) (Memory.wf_write a b h)

/-- The probe's placement keeps the canonical form. -/
theorem Memory.wf_placeWord {m : List Host.Cell} (a : Nat) (w : Word) (h : Memory.wf m = true) :
    Memory.wf (Memory.placeWord m a w) = true :=
  Memory.wf_write _ _ (Memory.wf_write _ _ h)

/-- Reading after the copy loop (R57): the image's byte inside the image, every other byte as before. -/
theorem Memory.byteAt_writeBytes (m : List Host.Cell) (a c : Nat) (bs : List Byte) (hfit : a + bs.length ≤ 4096) :
    Memory.byteAt (Memory.writeBytes m a bs) c =
      if a ≤ c ∧ c < a + bs.length then bs.getD (c - a) 0 else Memory.byteAt m c := by
  induction bs generalizing m a with
  | nil =>
    have : ¬(a ≤ c ∧ c < a + 0) := by omega
    simp only [List.length_nil, this, if_false]; rfl
  | cons b bs ih =>
    simp only [List.length_cons] at hfit ⊢
    rw [Memory.writeBytes, ih _ _ (by omega), Memory.byteAt_write]
    by_cases h1 : a = c
    · subst h1
      have h2 : ¬(a + 1 ≤ a ∧ a < a + 1 + bs.length) := by omega
      have h3 : a ≤ a ∧ a < a + (bs.length + 1) := by omega
      have h4 : a < 4096 := by omega
      rw [if_neg h2, if_pos h3, if_pos ⟨rfl, h4⟩]
      simp
    · by_cases h5 : a + 1 ≤ c ∧ c < a + 1 + bs.length
      · have h3 : a ≤ c ∧ c < a + (bs.length + 1) := by omega
        obtain ⟨k, rfl⟩ : ∃ k, c = a + 1 + k := ⟨c - (a + 1), by omega⟩
        have h6 : a + 1 + k - a = k + 1 := by omega
        have h7 : a + 1 + k - (a + 1) = k := by omega
        simp only [h5, h3, if_true, h6, h7, List.getD_cons_succ, and_self]
      · have h3 : ¬(a ≤ c ∧ c < a + (bs.length + 1)) := by omega
        rw [if_neg h5, if_neg h3, if_neg (fun h => h1 h.1)]

/-! ### The new pc of a handler -/

/-- Everything `goto` can do: the target in `pc`, or no meaning above 0xFFFF (R96). -/
theorem goto_eq (a : Nat) (s : State) :
    (a ≤ 0xFFFF ∧ goto a s = .next (s.setPc (BitVec.ofNat 16 a))) ∨ (0xFFFF < a ∧ goto a s = .refused .pcOverflow) := by
  unfold goto
  split
  · exact .inl ⟨‹_›, rfl⟩
  · exact .inr ⟨by omega, rfl⟩

/-- When a handler advances, it does nothing else to the state it has reached. -/
theorem advance_of_le {d : Nat} {s : State} (h : s.pc.toNat + d ≤ 0xFFFF) :
    advance d s = .next (s.setPc (s.pc + BitVec.ofNat 16 d)) := by
  have e : BitVec.ofNat 16 (s.pc.toNat + d) = s.pc + BitVec.ofNat 16 d := by
    rw [BitVec.ofNat_add, BitVec.ofNat_toNat, BitVec.setWidth_eq]
  simp [advance, goto, h, e]

theorem advance_of_gt {d : Nat} {s : State} (h : 0xFFFF < s.pc.toNat + d) : advance d s = .refused .pcOverflow := by
  have : ¬ s.pc.toNat + d ≤ 65535 := by omega
  simp [advance, goto, this]

/-- A handler's advance that answers a next state stayed within 16 bits and changed `pc` alone. -/
theorem advance_next {d : Nat} {s t : State} (h : advance d s = .next t) :
    s.pc.toNat + d ≤ 0xFFFF ∧ t = s.setPc (BitVec.ofNat 16 (s.pc.toNat + d)) := by
  unfold advance at h
  rcases goto_eq (s.pc.toNat + d) s with ⟨h1, h2⟩ | ⟨h1, h2⟩
  · rw [h2] at h; exact ⟨h1, by simpa using h.symm⟩
  · rw [h2] at h; cases h

/-- `goto` answers a next state only so. -/
theorem goto_next {a : Nat} {s t : State} (h : goto a s = .next t) :
    a ≤ 0xFFFF ∧ t = s.setPc (BitVec.ofNat 16 a) := by
  rcases goto_eq a s with ⟨h1, h2⟩ | ⟨h1, h2⟩
  · rw [h2] at h; exact ⟨h1, by simpa using h.symm⟩
  · rw [h2] at h; cases h

/-! ### The stack -/

/-- Everything a push can do (R112, D3). -/
theorem State.push_cases (s : State) (a : Word) :
    (s.sp.val = 16 ∧ s.push a = .error .stackOverflow) ∨
    (∃ h : s.sp.val < 16, s.push a =
      .ok { s with stack := s.stack.set s.sp.val a h, sp := ⟨s.sp.val + 1, by omega⟩ }) := by
  unfold State.push
  split
  · exact .inl ⟨‹_›, rfl⟩
  · exact .inr ⟨by omega, rfl⟩

/-- Everything a pop can do (R110, D4). -/
theorem State.pop_cases (s : State) :
    (s.sp.val = 0 ∧ s.pop = .error .stackUnderflow) ∨
    (∃ h : 0 < s.sp.val, s.pop =
      .ok (s.stack[s.sp.val - 1]'(by omega), { s with sp := ⟨s.sp.val - 1, by omega⟩ })) := by
  unfold State.pop
  split
  · exact .inl ⟨‹_›, rfl⟩
  · exact .inr ⟨by omega, rfl⟩

/-! ### Keys, random bytes, the tick -/

/-- Everything the key operand can be (R160, D8). -/
theorem State.keyOperand_cases (s : State) (x : Nibble) :
    ((s.readV x).toNat < 16 ∧ s.keyOperand x = .ok (s.readV x).toNat) ∨
    (16 ≤ (s.readV x).toNat ∧ s.keyOperand x = .error (.keyIndexOutOfRange (s.readV x))) := by
  unfold State.keyOperand
  split
  · exact .inl ⟨‹_›, rfl⟩
  · exact .inr ⟨by simp_all, rfl⟩

/-- The tick subtracts one and stops at zero (R94). -/
theorem tickDown_toNat (t : Byte) : (tickDown t).toNat = t.toNat - 1 := by
  unfold tickDown
  split
  · subst_vars; rfl
  · have h : t.toNat ≠ 0 := by intro h; exact absurd (BitVec.eq_of_toNat_eq h) ‹_›
    have := t.isLt
    rw [BitVec.toNat_sub]
    simp only [BitVec.toNat_ofNat]
    omega

/-- The tick changes the two timers and nothing else. -/
theorem timerTick_state (s : State) :
    (timerTick s).1 = { s with dt := tickDown s.dt, st := tickDown s.st } := rfl

end Sys2Proof.Machine
end

