-- ==== Sys2Proof/Laws/Display.lean ====
section
/-! SUPPORT. The framebuffer's pixels (spec/10_state.md R25) and what the loops of DRW can do (spec/45_display.md R151). -/

namespace Sys2Proof.Machine

/-- Toggling one pixel changes that pixel and no other. -/
theorem framePixel_toggle (fb : Frame) (k j : Nat) (hk : k < 2048) :
    framePixel (frameToggle fb k) j = (framePixel fb j ^^ decide (j = k)) := by
  have hk' : k / 64 < 32 := by omega
  unfold framePixel frameToggle
  rw [dif_pos hk']
  by_cases hj : j / 64 < 32
  · simp only [dif_pos hj, Vector.getElem_set]
    by_cases hr : k / 64 = j / 64
    · have hm : j % 64 < 64 := Nat.mod_lt _ (by omega)
      by_cases hc : k % 64 = j % 64
      · have : j = k := by omega
        subst this
        simp [hm]
      · have : j ≠ k := fun h => hc (by rw [h])
        simp [hr, BitVec.getLsbD_twoPow, hc, this]
    · have : j ≠ k := fun h => hr (by rw [h])
      simp [hr, this]
  · have : j ≠ k := by omega
    simp [dif_neg hj, this]

/-- Every pixel of the cleared framebuffer is 0. -/
@[simp] theorem framePixel_clear (k : Nat) : framePixel frameClear k = false := by
  simp [framePixel, frameClear]

/-- Two framebuffers with the same 2048 pixels are equal. -/
theorem frame_ext {a b : Frame} (h : ∀ k < 2048, framePixel a k = framePixel b k) : a = b := by
  apply Vector.ext
  intro r hr
  apply BitVec.eq_of_getLsbD_eq
  intro c hc
  have hd : (c + r * 64) / 64 = r := by omega
  have hm : (c + r * 64) % 64 = c := by omega
  have := h (c + r * 64) (by omega)
  unfold framePixel at this
  simpa [hd, hm, hr] using this

/-- Every pixel's index inside the grid is inside the array, and no two pixels of the grid share one (R25). -/
theorem pixelIndex_lt {cx cy : Nat} (h : onScreen cx cy = true) : pixelIndex cx cy < 2048 := by
  simp only [onScreen, Config.fbWidth, Config.fbHeight, Bool.and_eq_true, decide_eq_true_eq] at h
  unfold pixelIndex
  omega

theorem pixelIndex_inj {cx cy dx dy : Nat} (h : onScreen cx cy = true) (h' : onScreen dx dy = true)
    (e : pixelIndex cx cy = pixelIndex dx dy) : cx = dx ∧ cy = dy := by
  simp only [onScreen, Config.fbWidth, Config.fbHeight, Bool.and_eq_true, decide_eq_true_eq] at h h'
  unfold pixelIndex at e
  omega

/-- Everything one sprite bit can do (R151): nothing for a clear bit; the toggle and the collision for a set bit inside the
grid; the fault for a set bit outside. -/
theorem drawBit_cases (px py row : Nat) (b : Byte) (col : Nat) (c : Canvas) :
    (spriteColumn b col = false ∧ drawBit px py row b col c = .ok c) ∨
    (spriteColumn b col = true ∧ onScreen (px + col) (py + row) = true ∧ drawBit px py row b col c =
      .ok { fb := frameToggle c.fb (pixelIndex (px + col) (py + row)),
            vf := collisionFlag c.vf (framePixel c.fb (pixelIndex (px + col) (py + row))) }) ∨
    (spriteColumn b col = true ∧ onScreen (px + col) (py + row) = false ∧ drawBit px py row b col c =
      .error (.framebufferOutOfBounds (px + col) (py + row))) := by
  unfold drawBit
  cases hb : spriteColumn b col
  · exact .inl ⟨rfl, by simp⟩
  · cases ho : onScreen (px + col) (py + row)
    · exact .inr (.inr ⟨rfl, rfl, by simp⟩)
    · exact .inr (.inl ⟨rfl, rfl, by simp⟩)

/-- A loop over two lists of columns is the loop over the first and then over the second. -/
theorem drawColumns_append (px py row : Nat) (b : Byte) (xs ys : List Nat) (c : Canvas) :
    drawColumns px py row b (xs ++ ys) c =
      match drawColumns px py row b xs c with
      | .error f => .error f
      | .ok c' => drawColumns px py row b ys c' := by
  induction xs generalizing c with
  | nil => rfl
  | cons x xs ih =>
    simp only [List.cons_append, drawColumns]
    cases drawBit px py row b x c with
    | error f => rfl
    | ok c' => exact ih c'

/-- A loop over two lists of rows is the loop over the first and then over the second. -/
theorem drawRows_append (m : List Host.Cell) (i : Word) (px py : Nat) (xs ys : List Nat) (c : Canvas) :
    drawRows m i px py (xs ++ ys) c =
      match drawRows m i px py xs c with
      | .error f => .error f
      | .ok c' => drawRows m i px py ys c' := by
  induction xs generalizing c with
  | nil => rfl
  | cons x xs ih =>
    simp only [List.cons_append, drawRows]
    cases drawRow m i px py x c with
    | error f => rfl
    | ok c' => exact ih c'

/-- A loop of drawing faults only in these two ways (R151, R192). -/
theorem drawColumns_error {px py row : Nat} {b : Byte} {cols : List Nat} {c : Canvas} {f : Fault}
    (h : drawColumns px py row b cols c = .error f) :
    ∃ col ∈ cols, spriteColumn b col = true ∧ onScreen (px + col) (py + row) = false ∧
      f = .framebufferOutOfBounds (px + col) (py + row) := by
  induction cols generalizing c with
  | nil => cases h
  | cons col cols ih =>
    simp only [drawColumns] at h
    rcases drawBit_cases px py row b col c with ⟨-, e⟩ | ⟨-, -, e⟩ | ⟨hb, ho, e⟩
    · rw [e] at h
      obtain ⟨k, hk, r⟩ := ih h
      exact ⟨k, by simp [hk], r⟩
    · rw [e] at h
      obtain ⟨k, hk, r⟩ := ih h
      exact ⟨k, by simp [hk], r⟩
    · rw [e] at h
      exact ⟨col, by simp, hb, ho, by simpa using h.symm⟩

end Sys2Proof.Machine
end

