-- ==== Sys2Proof/Laws/Draw.lean ====
section
/-! SUPPORT. What the loops of DRW draw when nothing faults, said pixel by pixel (spec/45_display.md R151, R152). -/

namespace Sys2Proof.Machine

theorem onScreen_iff {cx cy : Nat} : onScreen cx cy = true ↔ cx < 64 ∧ cy < 32 := by
  simp [onScreen]

/-- A column loop whose set bits all land inside the grid toggles exactly the pixels it covers, and its flag is 1 exactly when it
was 1 or a covered pixel was 1 before the loop. -/
theorem drawColumns_ok (px py row : Nat) (b : Byte) (cols : List Nat) (hnd : cols.Nodup)
    (hfit : ∀ col ∈ cols, spriteColumn b col = true → onScreen (px + col) (py + row) = true) (c : Canvas) :
    ∃ c', drawColumns px py row b cols c = .ok c' ∧
      (∀ k, framePixel c'.fb k = (framePixel c.fb k ^^
        cols.any fun col => spriteColumn b col && decide (k = pixelIndex (px + col) (py + row)))) ∧
      c'.vf = if (cols.any fun col => spriteColumn b col && framePixel c.fb (pixelIndex (px + col) (py + row)))
        then 0x01#8 else c.vf := by
  induction cols generalizing c with
  | nil => exact ⟨c, rfl, by simp, by simp⟩
  | cons col cols ih =>
    obtain ⟨hnot, hnd'⟩ := List.nodup_cons.mp hnd
    have hfit' : ∀ x ∈ cols, spriteColumn b x = true → onScreen (px + x) (py + row) = true :=
      fun x hx => hfit x (List.mem_cons_of_mem _ hx)
    simp only [drawColumns]
    rcases drawBit_cases px py row b col c with ⟨hb, e⟩ | ⟨hb, ho, e⟩ | ⟨hb, ho, -⟩
    · rw [e]
      obtain ⟨c', h1, h2, h3⟩ := ih hnd' hfit' c
      exact ⟨c', h1, by simpa [hb] using h2, by simpa [hb] using h3⟩
    · rw [e]
      have hk := pixelIndex_lt ho
      obtain ⟨c', h1, h2, h3⟩ := ih hnd' hfit'
        { fb := frameToggle c.fb (pixelIndex (px + col) (py + row)),
          vf := collisionFlag c.vf (framePixel c.fb (pixelIndex (px + col) (py + row))) }
      have hne : ∀ x ∈ cols, spriteColumn b x = true →
          pixelIndex (px + x) (py + row) ≠ pixelIndex (px + col) (py + row) := by
        intro x hx hbx heq
        have := (pixelIndex_inj (hfit' x hx hbx) ho heq).1
        have hxc : x = col := by omega
        exact hnot (hxc ▸ hx)
      refine ⟨c', h1, fun k => ?_, ?_⟩
      · rw [h2, framePixel_toggle _ _ _ hk, List.any_cons, hb, Bool.true_and]
        by_cases hkc : k = pixelIndex (px + col) (py + row)
        · have hrest : (cols.any fun x => spriteColumn b x && decide (k = pixelIndex (px + x) (py + row))) = false := by
            rw [List.any_eq_false]
            intro x hx hbx
            simp only [Bool.and_eq_true, decide_eq_true_eq] at hbx
            exact hne x hx hbx.1 (hbx.2 ▸ hkc)
          simp only [hrest, Bool.or_false, Bool.xor_false]
        · simp [hkc]
      · rw [h3, List.any_cons, hb, Bool.true_and]
        have hsame : (cols.any fun x => spriteColumn b x &&
              framePixel (frameToggle c.fb (pixelIndex (px + col) (py + row))) (pixelIndex (px + x) (py + row))) =
            (cols.any fun x => spriteColumn b x && framePixel c.fb (pixelIndex (px + x) (py + row))) := by
          rw [Bool.eq_iff_iff, List.any_eq_true, List.any_eq_true]
          refine exists_congr fun x => and_congr_right fun hx => ?_
          rw [framePixel_toggle _ _ _ hk]
          by_cases hbx : spriteColumn b x = true
          · simp [hne x hx hbx]
          · simp [hbx]
        simp only [hsame, collisionFlag]
        cases framePixel c.fb (pixelIndex (px + col) (py + row)) <;> simp
    · exact absurd (hfit col (by simp) hb) (by simp [ho])

/-- The sprite's bit in the terms of the drawing loops. -/
theorem spriteBit_eq (m : List Host.Cell) (i : Word) (row col : Nat) :
    spriteBit m i row col = spriteColumn (Memory.byteAt m (rowAddress i row)) col := rfl

/-- One row that fits. -/
theorem drawRow_ok (m : List Host.Cell) (i : Word) (px py row : Nat) (h : RowFits m i px py row) (c : Canvas) :
    ∃ c', drawRow m i px py row c = .ok c' ∧
      (∀ k, framePixel c'.fb k = (framePixel c.fb k ^^
        (List.range 8).any fun col => spriteBit m i row col && decide (k = pixelIndex (px + col) (py + row)))) ∧
      c'.vf = if ((List.range 8).any fun col => spriteBit m i row col && framePixel c.fb (pixelIndex (px + col) (py + row)))
        then 0x01#8 else c.vf := by
  unfold drawRow
  rw [Memory.readByte_ok (a := rowAddress i row) h.1]
  simp only [spriteBit_eq]
  exact drawColumns_ok px py row _ (List.range 8) List.nodup_range
    (fun col hc hb => onScreen_iff.mpr (h.2 col (List.mem_range.mp hc) hb)) c

/-- The row loop that fits draws the whole sprite. -/
theorem drawRows_ok (m : List Host.Cell) (i : Word) (px py n : Nat) (h : SpriteFits m i px py n) (c : Canvas) :
    ∃ c', drawRows m i px py (List.range n) c = .ok c' ∧
      (∀ k, framePixel c'.fb k = (framePixel c.fb k ^^ spriteCovers m i px py n k)) ∧
      c'.vf = if spriteHits m i px py n c.fb then 0x01#8 else c.vf := by
  induction n with
  | zero => exact ⟨c, rfl, by simp [spriteCovers], by simp [spriteHits]⟩
  | succ n ih =>
    obtain ⟨c1, e1, p1, v1⟩ := ih fun row hr => h row (by omega)
    obtain ⟨c2, e2, p2, v2⟩ := drawRow_ok m i px py n (h n (by omega)) c1
    have hfresh : ∀ col < 8, spriteBit m i n col = true →
        spriteCovers m i px py n (pixelIndex (px + col) (py + n)) = false := by
      intro col hc hb
      unfold spriteCovers
      rw [List.any_eq_false]
      intro row hr
      rw [List.any_eq_true]
      rintro ⟨col', hc', hk⟩
      simp only [Bool.and_eq_true, decide_eq_true_eq] at hk
      have hr' : row < n := List.mem_range.mp hr
      have s1 := onScreen_iff.mpr ((h n (by omega)).2 col hc hb)
      have s2 := onScreen_iff.mpr ((h row (by omega)).2 col' (List.mem_range.mp hc') hk.1)
      have := (pixelIndex_inj s1 s2 hk.2).2
      omega
    refine ⟨c2, ?_, fun k => ?_, ?_⟩
    · rw [List.range_succ, drawRows_append, e1]
      simp only [drawRows, e2]
    · have hdisj : spriteCovers m i px py n k = true →
          ((List.range 8).any fun col => spriteBit m i n col && decide (k = pixelIndex (px + col) (py + n))) = false := by
        intro hk
        rw [List.any_eq_false]
        intro col hc hb
        simp only [Bool.and_eq_true, decide_eq_true_eq] at hb
        have := hfresh col (List.mem_range.mp hc) hb.1
        rw [← hb.2, hk] at this
        cases this
      have hsucc : spriteCovers m i px py (n + 1) k = (spriteCovers m i px py n k ||
          (List.range 8).any fun col => spriteBit m i n col && decide (k = pixelIndex (px + col) (py + n))) := by
        unfold spriteCovers pixelIndex
        rw [List.range_succ (n := n), List.any_append]
        simp only [List.any_cons, List.any_nil, Bool.or_false]
      rw [p2, p1, hsucc]
      cases hcov : spriteCovers m i px py n k
      · simp
      · simp [hdisj hcov]
    · have hsame : ((List.range 8).any fun col => spriteBit m i n col && framePixel c1.fb (pixelIndex (px + col) (py + n))) =
          ((List.range 8).any fun col => spriteBit m i n col && framePixel c.fb (pixelIndex (px + col) (py + n))) := by
        rw [Bool.eq_iff_iff, List.any_eq_true, List.any_eq_true]
        refine exists_congr fun col => and_congr_right fun hc => ?_
        rw [p1]
        by_cases hb : spriteBit m i n col = true
        · simp [hfresh col (List.mem_range.mp hc) hb]
        · simp [hb]
      have hsucc : spriteHits m i px py (n + 1) c.fb = (spriteHits m i px py n c.fb ||
          (List.range 8).any fun col => spriteBit m i n col && framePixel c.fb (pixelIndex (px + col) (py + n))) := by
        unfold spriteHits pixelIndex
        rw [List.range_succ (n := n), List.any_append]
        simp only [List.any_cons, List.any_nil, Bool.or_false]
      rw [v2, hsame, v1, hsucc]
      cases spriteHits m i px py n c.fb <;> simp

/-- A row loop faults only so: at a row outside memory, or at a set bit outside the grid (R151). -/
theorem drawRows_error {m : List Host.Cell} {i : Word} {px py : Nat} {rows : List Nat} {c : Canvas} {f : Fault}
    (h : drawRows m i px py rows c = .error f) :
    ∃ row ∈ rows, f = .outOfBoundsMemoryAccess (rowAddress i row) ∨
      ∃ col < 8, onScreen (px + col) (py + row) = false ∧ f = .framebufferOutOfBounds (px + col) (py + row) := by
  induction rows generalizing c with
  | nil => cases h
  | cons row rows ih =>
    simp only [drawRows] at h
    split at h
    · rename_i g hg
      cases h
      refine ⟨row, by simp, ?_⟩
      unfold drawRow at hg
      split at hg
      · rename_i g' hr
        unfold Memory.readByte at hr
        split at hr
        · cases hr
        · cases hr; cases hg; exact .inl rfl
      · obtain ⟨col, hc, -, ho, rfl⟩ := drawColumns_error hg
        exact .inr ⟨col, List.mem_range.mp hc, ho, rfl⟩
    · obtain ⟨r, hr, x⟩ := ih h
      exact ⟨r, by simp [hr], x⟩

end Sys2Proof.Machine
end

