-- ==== Sys2Proof/Laws/Table.lean ====
section
/-! SUPPORT. The rows of the table in terms of the fields (spec/30_encoding.md R72, R74): what each mask keeps of a word. -/

namespace Sys2Proof

/-- Two words with the same sixteen bits are equal. -/
theorem word_ext {a b : Word} (h : ∀ j : Fin 16, a.getLsbD j = b.getLsbD j) : a = b :=
  BitVec.eq_of_getLsbD_eq fun j hj => h ⟨j, hj⟩

/-- The mask of the formats NNN, XKK and XYN keeps the class. -/
theorem and_F000 (w : Word) : w &&& 0xF000#16 = fieldOp w ++ 0x000#12 := by
  apply word_ext
  intro j
  rw [BitVec.getLsbD_and, bit_nnn]
  fin_cases j <;> simp [fieldOp]

/-- The mask of the format XY keeps the class and the low nibble. -/
theorem and_F00F (w : Word) : w &&& 0xF00F#16 = fieldOp w ++ 0x0#4 ++ 0x0#4 ++ fieldN w := by
  apply word_ext
  intro j
  rw [BitVec.getLsbD_and, bit_xyn]
  fin_cases j <;> simp [fieldOp, fieldN]

/-- The mask of the format X keeps the class and the low byte. -/
theorem and_F0FF (w : Word) : w &&& 0xF0FF#16 = fieldOp w ++ 0x0#4 ++ fieldKk w := by
  apply word_ext
  intro j
  rw [BitVec.getLsbD_and, bit_xkk]
  fin_cases j <;> simp [fieldOp, fieldKk]

/-- The mask of the format FIXED keeps the whole word. -/
theorem and_FFFF (w : Word) : w &&& 0xFFFF#16 = w := by
  apply word_ext
  intro j
  rw [BitVec.getLsbD_and]
  fin_cases j <;> simp

theorem accepts_FFFF (w p : Word) : (Row.mk 0xFFFF#16 p).accepts w = true ↔ w = p := by
  simp [Row.accepts, and_FFFF]

theorem accepts_F000 (w p : Word) (hp : fieldNnn p = 0x000#12) :
    (Row.mk 0xF000#16 p).accepts w = true ↔ fieldOp w = fieldOp p := by
  simp only [Row.accepts, beq_iff_eq]
  rw [and_F000, ← word_eq_op_nnn p, hp]
  exact ⟨fun h => by simpa using congrArg fieldOp h, fun h => by simp [h]⟩

theorem accepts_F00F (w p : Word) (hx : fieldX p = 0x0#4) (hy : fieldY p = 0x0#4) :
    (Row.mk 0xF00F#16 p).accepts w = true ↔ fieldOp w = fieldOp p ∧ fieldN w = fieldN p := by
  simp only [Row.accepts, beq_iff_eq]
  rw [and_F00F, ← word_eq_op_x_y_n p, hx, hy]
  exact ⟨fun h => ⟨by simpa using congrArg fieldOp h, by simpa using congrArg fieldN h⟩, fun h => by simp [h]⟩

theorem accepts_F0FF (w p : Word) (hx : fieldX p = 0x0#4) :
    (Row.mk 0xF0FF#16 p).accepts w = true ↔ fieldOp w = fieldOp p ∧ fieldKk w = fieldKk p := by
  simp only [Row.accepts, beq_iff_eq]
  rw [and_F0FF, ← word_eq_op_x_kk p, hx]
  exact ⟨fun h => ⟨by simpa using congrArg fieldOp h, by simpa using congrArg fieldKk h⟩, fun h => by simp [h]⟩

end Sys2Proof
end

