-- ==== Sys2Proof/Laws/PerInstr.lean ====
section
/-! SUPPORT. The statement made of every instruction as syntax: its encoded word matches the row of the decode table that
stands for it (spec/30_encoding.md R72, R74, R79). One lemma per constructor. -/

namespace Sys2Proof.Laws.EncodeMatchesRow

/-- The word of the instruction is one of the words its row accepts. -/
def Statement (i : Instr) : Prop := i.row.accepts (encode i) = true

theorem cls : Statement .cls := by rw [Statement, Instr.row, accepts_FFFF]; rfl

theorem ret : Statement .ret := by rw [Statement, Instr.row, accepts_FFFF]; rfl

theorem jpNnn (nnn : Addr12) : Statement (.jpNnn nnn) := by
  rw [Statement, Instr.row, accepts_F000 _ _ (by decide)]; simp [encode]; decide

theorem callNnn (nnn : Addr12) : Statement (.callNnn nnn) := by
  rw [Statement, Instr.row, accepts_F000 _ _ (by decide)]; simp [encode]; decide

theorem seVxKk (x : Nibble) (kk : Byte) : Statement (.seVxKk x kk) := by
  rw [Statement, Instr.row, accepts_F000 _ _ (by decide)]; simp [encode]; decide

theorem sneVxKk (x : Nibble) (kk : Byte) : Statement (.sneVxKk x kk) := by
  rw [Statement, Instr.row, accepts_F000 _ _ (by decide)]; simp [encode]; decide

theorem ldVxKk (x : Nibble) (kk : Byte) : Statement (.ldVxKk x kk) := by
  rw [Statement, Instr.row, accepts_F000 _ _ (by decide)]; simp [encode]; decide

theorem addVxKk (x : Nibble) (kk : Byte) : Statement (.addVxKk x kk) := by
  rw [Statement, Instr.row, accepts_F000 _ _ (by decide)]; simp [encode]; decide

theorem ldVxVy (x y : Nibble) : Statement (.ldVxVy x y) := by
  rw [Statement, Instr.row, accepts_F00F _ _ (by decide) (by decide)]; simp [encode]; decide

theorem sneVxVy (x y : Nibble) : Statement (.sneVxVy x y) := by
  rw [Statement, Instr.row, accepts_F00F _ _ (by decide) (by decide)]; simp [encode]; decide

theorem ldINnn (nnn : Addr12) : Statement (.ldINnn nnn) := by
  rw [Statement, Instr.row, accepts_F000 _ _ (by decide)]; simp [encode]; decide

theorem rndVxKk (x : Nibble) (kk : Byte) : Statement (.rndVxKk x kk) := by
  rw [Statement, Instr.row, accepts_F000 _ _ (by decide)]; simp [encode]; decide

theorem drwVxVyN (x y n : Nibble) : Statement (.drwVxVyN x y n) := by
  rw [Statement, Instr.row, accepts_F000 _ _ (by decide)]; simp [encode]; decide

theorem skpVx (x : Nibble) : Statement (.skpVx x) := by
  rw [Statement, Instr.row, accepts_F0FF _ _ (by decide)]; simp [encode]; decide

theorem sknpVx (x : Nibble) : Statement (.sknpVx x) := by
  rw [Statement, Instr.row, accepts_F0FF _ _ (by decide)]; simp [encode]; decide

theorem ldVxDt (x : Nibble) : Statement (.ldVxDt x) := by
  rw [Statement, Instr.row, accepts_F0FF _ _ (by decide)]; simp [encode]; decide

theorem ldDtVx (x : Nibble) : Statement (.ldDtVx x) := by
  rw [Statement, Instr.row, accepts_F0FF _ _ (by decide)]; simp [encode]; decide

theorem addIVx (x : Nibble) : Statement (.addIVx x) := by
  rw [Statement, Instr.row, accepts_F0FF _ _ (by decide)]; simp [encode]; decide

end Sys2Proof.Laws.EncodeMatchesRow
end

