-- ==== Sys2Proof/Laws/Step.lean ====
section
/-! SUPPORT. Everything a step can do, said once (spec/40_step_cycle.md R90, R97). -/

namespace Sys2Proof.Machine

/-- A running engine whose word decodes executes the handler and ends the step. -/
theorem cycle_of_decode {s : State} {w : Word} {i : Instr} (hr : s.faultInfo = none) (hf : fetch s = .ok w)
    (hd : decode w = .ok i) : cycle s = finishStep (exec i s) := by
  simp only [cycle, hr, hf, runWord, hd]

/-- A running engine whose fetch faults latches that fault. -/
theorem cycle_of_fetch_error {s : State} {f : Fault} (hr : s.faultInfo = none) (hf : fetch s = .error f) :
    cycle s = { outcome := .next (s.latch f), beep := false, report := some f } := by
  simp only [cycle, hr, hf, raise, finishStep, State.latch_faultInfo]

/-- A running engine whose word is illegal latches that fault. -/
theorem cycle_of_decode_error {s : State} {w : Word} {e : DecodeError} (hr : s.faultInfo = none) (hf : fetch s = .ok w)
    (hd : decode w = .error e) :
    cycle s = { outcome := .next (s.latch (faultOfDecode w e)), beep := false, report := some (faultOfDecode w e) } := by
  simp only [cycle, hr, hf, runWord, hd, raise, finishStep, State.latch_faultInfo]

/-- A faulted engine changes nothing. -/
theorem cycle_of_faulted {s : State} {f : Fault} (h : s.faultInfo = some f) :
    cycle s = { outcome := .next s, beep := false, report := some f } := by
  simp only [cycle, h]

/-- The end of a step after a handler that answered a state. -/
theorem finishStep_next (t : State) :
    (∃ f, t.faultInfo = some f ∧ finishStep (.next t) = { outcome := .next t, beep := false, report := some f }) ∨
    (t.faultInfo = none ∧ finishStep (.next t) =
      { outcome := .next (timerTick t).1, beep := (timerTick t).2, report := none }) := by
  cases h : t.faultInfo with
  | none => exact .inr ⟨rfl, by simp only [finishStep, h]⟩
  | some f => exact .inl ⟨f, rfl, by simp only [finishStep, h]⟩

/-- Every step that answers a state is one of these five: frozen; a fetch fault; an illegal word; a handler that completed, then
the tick; a handler that faulted, and no tick. -/
theorem step_next_cases {s t : State} (h : step s = .next t) :
    (∃ f, s.faultInfo = some f ∧ t = s) ∨
    (s.faultInfo = none ∧ ∃ f, fetch s = .error f ∧ t = s.latch f) ∨
    (s.faultInfo = none ∧ ∃ w e, fetch s = .ok w ∧ decode w = .error e ∧ t = s.latch (faultOfDecode w e)) ∨
    (s.faultInfo = none ∧ ∃ w i u, fetch s = .ok w ∧ decode w = .ok i ∧ exec i s = .next u ∧
      u.faultInfo = none ∧ t = (timerTick u).1) ∨
    (s.faultInfo = none ∧ ∃ w i f, fetch s = .ok w ∧ decode w = .ok i ∧ exec i s = .next t ∧ t.faultInfo = some f) := by
  unfold step at h
  cases hr : s.faultInfo with
  | some f =>
    rw [cycle_of_faulted hr] at h
    exact .inl ⟨f, rfl, by simpa using h.symm⟩
  | none =>
    cases hf : fetch s with
    | error f =>
      rw [cycle_of_fetch_error hr hf] at h
      exact .inr (.inl ⟨rfl, f, rfl, by simpa using h.symm⟩)
    | ok w =>
      cases hd : decode w with
      | error e =>
        rw [cycle_of_decode_error hr hf hd] at h
        exact .inr (.inr (.inl ⟨rfl, w, e, rfl, hd, by simpa using h.symm⟩))
      | ok i =>
        rw [cycle_of_decode hr hf hd] at h
        cases he : exec i s with
        | next u =>
          rw [he] at h
          rcases finishStep_next u with ⟨f, hu, e⟩ | ⟨hu, e⟩
          · rw [e] at h
            obtain rfl : u = t := by simpa using h
            exact .inr (.inr (.inr (.inr ⟨rfl, w, i, f, rfl, hd, he, hu⟩)))
          · rw [e] at h
            exact .inr (.inr (.inr (.inl ⟨rfl, w, i, u, rfl, hd, he, hu, by simpa using h.symm⟩)))
        | fault f => rw [he] at h; simp [finishStep] at h
        | refused r => rw [he] at h; simp [finishStep] at h

end Sys2Proof.Machine
end

