-- ==== Sys2Proof/Tests/Slice0.lean ====
section
/-! SUPPORT. The model's own tests. Every expected value is from spec/95_test_vectors.md or worked out by hand from the rule the
comment names; and one named witness for the hypotheses of every statement that has any. -/

namespace Sys2Proof.Tests

open Sys2Proof.Machine

/-! ### Helpers -/

/-- Does the outcome answer a next state that passes the check? -/
def after (o : Host.Outcome State Fault Refusal) (check : State → Bool) : Bool :=
  match o with
  | .next t => check t
  | .fault _ => false
  | .refused _ => false

/-- Is the outcome a fault given back to the host? -/
def faultsWith (o : Host.Outcome State Fault Refusal) (f : Fault) : Bool :=
  match o with
  | .next _ => false
  | .fault g => g == f
  | .refused _ => false

/-- The reset state with the given bytes in memory. -/
def withMem (m : List Host.Cell) : State := State.reset.setMem m

/-- The reset state with one instruction word at 0x200. -/
def holding (hi lo : Byte) : State := withMem [(0x200, hi), (0x201, lo)]

/-- A framebuffer with exactly the listed entries at 1. -/
def lit (ks : List Nat) : Frame := ks.foldl frameToggle frameClear

/-- A stack with `a` in slot `j` and 0 elsewhere. -/
def stackWith (j : Fin 16) (a : Word) : Vector Word 16 := (Vector.replicate 16 0x0000#16).set j.val a j.isLt

/-- The reset state with a sprite at 0x300 and two coordinate registers set. -/
def sprite (px py : Byte) (rows : List Host.Cell) : State :=
  (((withMem rows).setI 0x300#16).setV 0#4 px).setV 1#4 py

/-! ### Well-formedness: for each class with illegal words, one that the check refuses (T-DEC) -/

theorem test_wordWellFormed_class0 : wordWellFormed 0x00E1#16 = false := by decide
theorem test_wordWellFormed_class5 : wordWellFormed 0x5120#16 = false := by decide
theorem test_wordWellFormed_class8 : wordWellFormed 0x8121#16 = false := by decide
theorem test_wordWellFormed_class9 : wordWellFormed 0x9121#16 = false := by decide
theorem test_wordWellFormed_classB : wordWellFormed 0xB123#16 = false := by decide
theorem test_wordWellFormed_classE : wordWellFormed 0xE09F#16 = false := by decide
theorem test_wordWellFormed_classF : wordWellFormed 0xF018#16 = false := by decide

theorem test_wordWellFormed_legal :
    (wordWellFormed 0x00E0#16 && wordWellFormed 0x8AB0#16 && wordWellFormed 0x9FF0#16 && wordWellFormed 0xDFFF#16 &&
      wordWellFormed 0xEF9E#16 && wordWellFormed 0xFF1E#16) = true := by decide

/-- The table of `Instr.row` is the table the check goes through, in the same order. -/
theorem test_rows_in_table :
    opcodeTable = [Instr.cls, .ret, .jpNnn 0#12, .callNnn 0#12, .seVxKk 0#4 0#8, .sneVxKk 0#4 0#8, .ldVxKk 0#4 0#8,
      .addVxKk 0#4 0#8, .ldVxVy 0#4 0#4, .sneVxVy 0#4 0#4, .ldINnn 0#12, .rndVxKk 0#4 0#8, .drwVxVyN 0#4 0#4 0#4,
      .skpVx 0#4, .sknpVx 0#4, .ldVxDt 0#4, .ldDtVx 0#4, .addIVx 0#4].map Instr.row := by decide

/-- No two rows of the table accept a common word: where both masks have a bit, some pair of patterns differs. -/
theorem test_rows_disjoint :
    opcodeTable.Pairwise fun r q => r.pattern &&& q.mask ≠ q.pattern &&& r.mask := by decide

/-! ### Decoding: words written out bit by bit from R71, R72 and R79 -/

theorem test_decode_cls : decode 0b0000000011100000#16 = .ok .cls := by decide
theorem test_decode_ret : decode 0b0000000011101110#16 = .ok .ret := by decide
theorem test_decode_jpNnn : decode 0b0001101010111100#16 = .ok (.jpNnn 0xABC#12) := by decide
theorem test_decode_callNnn : decode 0b0010101010111100#16 = .ok (.callNnn 0xABC#12) := by decide
theorem test_decode_seVxKk : decode 0b0011001100101010#16 = .ok (.seVxKk 3#4 0x2A#8) := by decide
theorem test_decode_sneVxKk : decode 0b0100001100101010#16 = .ok (.sneVxKk 3#4 0x2A#8) := by decide
theorem test_decode_ldVxKk : decode 0b0110101001111111#16 = .ok (.ldVxKk 10#4 0x7F#8) := by decide
theorem test_decode_addVxKk : decode 0b0111000111111111#16 = .ok (.addVxKk 1#4 0xFF#8) := by decide
theorem test_decode_ldVxVy : decode 0b1000111011110000#16 = .ok (.ldVxVy 14#4 15#4) := by decide
theorem test_decode_sneVxVy : decode 0b1001000100100000#16 = .ok (.sneVxVy 1#4 2#4) := by decide
theorem test_decode_ldINnn : decode 0b1010001000001110#16 = .ok (.ldINnn 0x20E#12) := by decide
theorem test_decode_rndVxKk : decode 0b1100000100001111#16 = .ok (.rndVxKk 1#4 0x0F#8) := by decide
theorem test_decode_drwVxVyN : decode 0b1101000000010010#16 = .ok (.drwVxVyN 0#4 1#4 2#4) := by decide
theorem test_decode_skpVx : decode 0b1110001110011110#16 = .ok (.skpVx 3#4) := by decide
theorem test_decode_sknpVx : decode 0b1110001110100001#16 = .ok (.sknpVx 3#4) := by decide
theorem test_decode_ldVxDt : decode 0b1111001100000111#16 = .ok (.ldVxDt 3#4) := by decide
theorem test_decode_ldDtVx : decode 0b1111001000010101#16 = .ok (.ldDtVx 2#4) := by decide
theorem test_decode_addIVx : decode 0b1111001000011110#16 = .ok (.addIVx 2#4) := by decide

/-- Words the family has elsewhere and this engine does not (R76). -/
theorem test_decode_illegal :
    decode 0x8124#16 = .error (.unrecognizedOpcode 0x8124#16) ∧ decode 0x5120#16 = .error (.unrecognizedOpcode 0x5120#16) ∧
    decode 0xF018#16 = .error (.unrecognizedOpcode 0xF018#16) ∧ decode 0x0000#16 = .error (.unrecognizedOpcode 0x0000#16) ∧
    decode 0xFFFF#16 = .error (.unrecognizedOpcode 0xFFFF#16) := by decide

theorem test_encodeBytes_big_endian : encodeBytes (.ldVxKk 10#4 0x7F#8) = [0x6A#8, 0x7F#8] := by decide

/-- The probe's numbering: the table's bits of one 16-bit word, stored high byte first. -/
theorem test_decodeTableWord :
    decodeTableWord 16 0x00E0 = some .cls ∧ decodeTableWord 16 0x1ABC = some (.jpNnn 0xABC#12) ∧
    decodeTableWord 16 0xD012 = some (.drwVxVyN 0#4 1#4 2#4) ∧ decodeTableWord 16 0x5120 = none := by decide

/-- Each row's word with zero operands runs as the first instruction after reset, but for `RET`, which faults on the empty stack. -/
theorem test_probe_runs_each_row :
    ([0x00E0, 0x1000, 0x2000, 0x3000, 0x4000, 0x6000, 0x7000, 0x8000, 0x9000].all fun w =>
      after (step (State.reset.withFetchWord 16 w)) fun t => t.faultInfo == none) = true ∧
    ([0xA000, 0xC000, 0xD000, 0xE09E, 0xE0A1, 0xF007, 0xF015, 0xF01E].all fun w =>
      after (step (State.reset.withFetchWord 16 w)) fun t => t.faultInfo == none) = true ∧
    after (step (State.reset.withFetchWord 16 0x00EE)) (fun t => t.faultInfo == some .stackUnderflow) = true := by decide

/-! ### Instructions -/

/-- T-DRW first row: `CLS` clears the framebuffer and leaves `VF`. -/
theorem test_cls :
    after (exec .cls ((State.reset.setFb (lit [5, 100])).setV 15#4 1#8))
      (fun t => t.fb == frameClear && t.readV 15#4 == 1#8 && t.pc == 0x202#16) = true := by decide

/-- T-FLOW: `RET` with `sp` = 16. -/
theorem test_ret_full_stack :
    after (exec .ret { State.reset with sp := 16, stack := stackWith 15 0x3FE#16 })
      (fun t => t.sp == 15 && t.pc == 0x400#16 && t.stack[15] == 0x3FE#16) = true := by decide

/-- T-FLOW: `RET` with `sp` = 0. -/
theorem test_ret_underflow :
    after (exec .ret State.reset) (fun t => t.faultInfo == some .stackUnderflow && t.pc == 0x200#16 && t.sp == 0) = true := by decide

/-- T-FLOW: `JP 0xFFF`. -/
theorem test_jpNnn : after (exec (.jpNnn 0xFFF#12) State.reset) (fun t => t.pc == 0x0FFF#16) = true := by decide

/-- T-FLOW: `CALL 0xABC` into the last slot. -/
theorem test_callNnn_last_slot :
    after (exec (.callNnn 0xABC#12) { State.reset with pc := 0x3FE#16, sp := 15 })
      (fun t => t.sp == 16 && t.pc == 0xABC#16 && t.stack[15] == 0x3FE#16 && t.stack[14] == 0#16) = true := by decide

/-- T-FLOW: `CALL 0xABC` with all slots in use. -/
theorem test_callNnn_overflow :
    after (exec (.callNnn 0xABC#12) { State.reset with pc := 0x3FE#16, sp := 16 })
      (fun t => t.faultInfo == some .stackOverflow && t.pc == 0x3FE#16 && t.sp == 16) = true := by decide

/-- T-SKIP: `SE V3,0x2A` with V3 = 0x2A and with V3 = 0x2B. -/
theorem test_seVxKk :
    (after (exec (.seVxKk 3#4 0x2A#8) (State.reset.setV 3#4 0x2A#8)) (fun t => t.pc == 0x204#16) &&
      after (exec (.seVxKk 3#4 0x2A#8) (State.reset.setV 3#4 0x2B#8)) (fun t => t.pc == 0x202#16)) = true := by decide

/-- T-SKIP: `SNE V3,0x2A` with V3 = 0x2A, and `SNE V3,0x00`. -/
theorem test_sneVxKk :
    (after (exec (.sneVxKk 3#4 0x2A#8) (State.reset.setV 3#4 0x2A#8)) (fun t => t.pc == 0x202#16) &&
      after (exec (.sneVxKk 3#4 0x00#8) (State.reset.setV 3#4 0x2A#8)) (fun t => t.pc == 0x204#16)) = true := by decide

/-- T-FETCH: the big-endian fetch of `LD VA,0x7F`. -/
theorem test_ldVxKk_step :
    after (step (holding 0x6A#8 0x7F#8)) (fun t => t.readV 10#4 == 0x7F#8 && t.readV 15#4 == 0#8 && t.pc == 0x202#16) = true := by
  decide

/-- T-REG: 0xFF + 0xFF = 0xFE with carry. -/
theorem test_addVxKk_carry :
    after (exec (.addVxKk 1#4 0xFF#8) (State.reset.setV 1#4 0xFF#8))
      (fun t => t.readV 1#4 == 0xFE#8 && t.readV 15#4 == 1#8) = true := by decide

/-- T-REG: `ADD VF,0x01` with VF = 0xFF leaves the carry 1, with VF = 5 the carry 0. -/
theorem test_addVxKk_flag_register :
    (after (exec (.addVxKk 15#4 0x01#8) (State.reset.setV 15#4 0xFF#8)) (fun t => t.readV 15#4 == 1#8) &&
      after (exec (.addVxKk 15#4 0x01#8) (State.reset.setV 15#4 0x05#8)) (fun t => t.readV 15#4 == 0#8)) = true := by decide

/-- T-REG: `LD VE,VF` copies the second operand into the first. -/
theorem test_ldVxVy :
    after (exec (.ldVxVy 14#4 15#4) (State.reset.setV 15#4 1#8))
      (fun t => t.readV 14#4 == 1#8 && t.readV 15#4 == 1#8 && t.pc == 0x202#16) = true := by decide

/-- T-SKIP: `SNE V1,V2` with 0x00 and 0xFF, and `SNE V1,V1`. -/
theorem test_sneVxVy :
    (after (exec (.sneVxVy 1#4 2#4) (State.reset.setV 2#4 0xFF#8)) (fun t => t.pc == 0x204#16) &&
      after (exec (.sneVxVy 1#4 1#4) (State.reset.setV 1#4 0x77#8)) (fun t => t.pc == 0x202#16)) = true := by decide

/-- T-IDX: `LD I,0xFFF` is zero-extended. -/
theorem test_ldINnn :
    after (exec (.ldINnn 0xFFF#12) (State.reset.setI 0xFF00#16)) (fun t => t.i == 0x0FFF#16 && t.pc == 0x202#16) = true := by decide

/-- T-REG: `RND V1,0x0F` keeps only the masked bits of the drawn byte, and draws once. -/
theorem test_rndVxKk :
    exec (.rndVxKk 1#4 0x0F#8) State.reset =
      .next { State.reset.setV 1#4 (0x0F#8 &&& Config.rand 0) with rndCount := 1, pc := 0x202#16 } := by rfl

/-- T-DRW: a collision on row 0, none on row 1: pixel 0 goes, pixel 64 comes, `VF` = 1. -/
theorem test_drwVxVyN_collision :
    after (exec (.drwVxVyN 0#4 1#4 2#4) ((sprite 0#8 0#8 [(0x300, 0x80#8), (0x301, 0x80#8)]).setFb (lit [0])))
      (fun t => t.fb == lit [64] && t.readV 15#4 == 1#8 && t.pc == 0x202#16) = true := by decide

/-- T-DRW: the bottom right corner just fits, and the next row's set bit faults at (63, 32). -/
theorem test_drwVxVyN_corner :
    (after (exec (.drwVxVyN 0#4 1#4 1#4) (sprite 56#8 31#8 [(0x300, 0xFF#8)]))
        (fun t => t.fb == lit [2040, 2041, 2042, 2043, 2044, 2045, 2046, 2047] && t.readV 15#4 == 0#8) &&
      after (exec (.drwVxVyN 0#4 1#4 2#4) (sprite 56#8 31#8 [(0x300, 0xFF#8), (0x301, 0x01#8)]))
        (fun t => t.faultInfo == some (.framebufferOutOfBounds 63 32) && t.pc == 0x200#16)) = true := by decide

/-- T-KEY: `SKP V0` on a pressed key 7, and on key number 16. -/
theorem test_skpVx :
    (after (exec (.skpVx 0#4) (writeKey 7#4 true (State.reset.setV 0#4 7#8))) (fun t => t.pc == 0x204#16) &&
      after (exec (.skpVx 0#4) (State.reset.setV 0#4 16#8))
        (fun t => t.faultInfo == some (.keyIndexOutOfRange 16#8) && t.pc == 0x200#16)) = true := by decide

/-- T-KEY: `SKNP V0` on key 7, pressed and released. -/
theorem test_sknpVx :
    (after (exec (.sknpVx 0#4) (writeKey 7#4 true (State.reset.setV 0#4 7#8))) (fun t => t.pc == 0x202#16) &&
      after (exec (.sknpVx 0#4) (State.reset.setV 0#4 7#8)) (fun t => t.pc == 0x204#16)) = true := by decide

/-- T-TMR: a step of `LD V3,DT` reads 5 and then ticks to 4. -/
theorem test_ldVxDt_step :
    after (step ((holding 0xF3#8 0x07#8).setDt 5#8)) (fun t => t.readV 3#4 == 5#8 && t.dt == 4#8) = true := by decide

/-- T-TMR: a step of `LD DT,V2` writes 0x0A and then ticks to 9. -/
theorem test_ldDtVx_step :
    after (step ((holding 0xF2#8 0x15#8).setV 2#4 0x0A#8)) (fun t => t.dt == 9#8) = true := by decide

/-- T-IDX: `ADD I,V0` beyond 12 bits is no fault; beyond 16 bits it is. -/
theorem test_addIVx :
    (after (exec (.addIVx 0#4) ((State.reset.setI 0x0FFF#16).setV 0#4 1#8)) (fun t => t.i == 0x1000#16 && t.readV 15#4 == 0#8) &&
      after (exec (.addIVx 0#4) ((State.reset.setI 0xFF01#16).setV 0#4 0xFF#8))
        (fun t => t.faultInfo == some (.indexOverflow 0x10000) && t.i == 0xFF01#16 && t.pc == 0x200#16)) = true := by decide

/-! ### The step, memory and the host -/

/-- T-DEC: a step on 0x8124 latches the fault, keeps `pc` and does not tick. -/
theorem test_step_illegal_word :
    after (step ((holding 0x81#8 0x24#8).setDt 5#8))
      (fun t => t.faultInfo == some (.unrecognizedOpcode 0x8124#16) && t.pc == 0x200#16 && t.dt == 5#8) = true := by decide

/-- T-FETCH: the straddling fetch at 0xFFF faults on 0x1000. -/
theorem test_step_straddling_fetch :
    after (step ((withMem [(0xFFF, 0x60#8)]).setPc 0x0FFF#16))
      (fun t => t.faultInfo == some (.outOfBoundsMemoryAccess 0x1000) && t.pc == 0x0FFF#16) = true := by decide

/-- T-TMR: `ST` = 1 gives a beep, `ST` = 2 and `ST` = 0 do not. -/
theorem test_beep :
    ((cycle ((holding 0x12#8 0x00#8).setSt 1#8)).beep && !(cycle ((holding 0x12#8 0x00#8).setSt 2#8)).beep &&
      !(cycle (holding 0x12#8 0x00#8)).beep) = true := by decide

/-- S9 and T-FETCH: a load, its two words, and an image that is one byte too long. -/
theorem test_loadProgram :
    after (loadProgram [0x12#8, 0x34#8, 0x56#8] State.reset) (fun t =>
      (hostReadWord 0x200 t).toOption == some 0x1234#16 && (hostReadWord 0x201 t).toOption == some 0x3456#16) = true := by decide

theorem test_loadProgram_too_large :
    faultsWith (loadProgram (List.replicate 0x0E01 0x00#8) State.reset) (.programTooLarge 0x0E01) = true := by
  rw [loadProgram, List.length_replicate]; rfl

/-- T-RST: reset clears the latch and the registers and leaves memory. -/
theorem test_reset :
    after (perform .reset (((holding 0x12#8 0x00#8).setV 4#4 9#8).latch (.unrecognizedOpcode 0x8124#16)))
      (fun t => t.faultInfo == none && t.readV 4#4 == 0#8 && t.pc == 0x200#16 && Memory.byteAt t.mem 0x200 == 0x12#8) = true := by
  decide

/-! ### Witnesses: a state and operands that meet the hypotheses of each statement, clause by clause -/

theorem witness_EncodeInvertsDecode : ∃ w i, decode w = .ok i := ⟨0xDFFF#16, .drwVxVyN 15#4 15#4 15#4, by decide⟩

theorem witness_DecodeSelectsOneRowOrFails :
    (∃ w, wordWellFormed w = false ∧ decode w = .error (.unrecognizedOpcode w)) ∧
    (∃ w i, decode w = .ok i ∧ ∀ r ∈ opcodeTable, r.accepts w = true ↔ r = i.row) :=
  ⟨⟨0x9FFF#16, by decide⟩, ⟨0x9FF0#16, .sneVxVy 15#4 15#4, by decide⟩⟩

/-- One word for each line of the table of illegal words, at an edge of it, and its legal neighbour. -/
theorem witness_IllegalWordsByClass :
    ([0x00DF#16, 0x00E1#16, 0x00ED#16, 0x00EF#16, 0x5000#16, 0xB000#16, 0x8001#16, 0x900F#16, 0xE09D#16, 0xE0A2#16,
      0xF006#16, 0xF016#16, 0xF01F#16].all fun w => decode w == .error (.unrecognizedOpcode w)) = true ∧
    ([0x00E0#16, 0x00EE#16, 0x4FFF#16, 0x6000#16, 0xAFFF#16, 0xC000#16, 0x8000#16, 0x9000#16, 0xE09E#16, 0xE0A1#16, 0xF007#16,
      0xF015#16, 0xF01E#16].all fun w => decode w != .error (.unrecognizedOpcode w)) = true := by
  decide

theorem witness_DecodeBytesReadsTwoBytes :
    ∃ hi lo : Byte, decode (hi ++ lo) = .error (.unrecognizedOpcode (hi ++ lo)) := ⟨0x51#8, 0x20#8, by decide⟩

theorem witness_StepRunsDecodedInstruction :
    ∃ (s : State) (i : Instr), s.Running ∧ s.pc.toNat ≤ 0x0FFE ∧
      decode (Memory.byteAt s.mem s.pc.toNat ++ Memory.byteAt s.mem (s.pc.toNat + 1)) = .ok i :=
  ⟨(withMem [(0xFFE, 0x60#8), (0xFFF, 0x01#8)]).setPc 0xFFE#16, .ldVxKk 0#4 0x01#8, by decide⟩

/-- Timers at 0, at 1 and at 255. -/
theorem witness_TimersTickAfterEveryCompletedHandler :
    ([0x00#8, 0x01#8, 0xFF#8].all fun b =>
      let s := ((holding 0x13#8 0x00#8).setDt b).setSt b
      s.faultInfo == none && (fetch s).toOption == some 0x1300#16 && decode 0x1300#16 == .ok (.jpNnn 0x300#12) &&
        after (exec (.jpNnn 0x300#12) s) (fun t => t.faultInfo == none && t.st == b)) = true := by decide

theorem witness_BeepExactlyWhenSoundTimerIsOne :
    ∃ s : State, s.Running ∧ Succeeds (step s) ∧ s.st = 0x01#8 ∧ (cycle s).beep = true :=
  ⟨(holding 0x12#8 0x00#8).setSt 1#8, rfl, rfl, rfl, rfl⟩

theorem witness_FetchPastTheEndFaults :
    ([0x0FFF#16, 0x1000#16, 0xFFFF#16].all fun a =>
      decide ((State.reset.setPc a).Running ∧ 0x0FFE < (State.reset.setPc a).pc.toNat)) = true := by decide

theorem witness_IllegalWordFaults :
    ∃ (s : State) (w : Word), s.Running ∧ fetch s = .ok w ∧ wordWellFormed w = false :=
  ⟨holding 0x81#8 0x24#8, 0x8124#16, by decide, rfl, by decide⟩

theorem witness_FaultedEngineIsFrozen : ∃ (s : State) (f : Fault), s.faultInfo = some f :=
  ⟨(holding 0x12#8 0x00#8).latch .stackOverflow, .stackOverflow, rfl⟩

theorem witness_FaultSkipsTickAndKeepsPc :
    ∃ (s : State) (w : Word) (i : Instr) (t : State) (f : Fault), s.Running ∧ fetch s = .ok w ∧ decode w = .ok i ∧
      exec i s = .next t ∧ t.faultInfo = some f ∧ s.dt = 0x05#8 :=
  ⟨(holding 0x00#8 0xEE#8).setDt 5#8, 0x00EE#16, .ret, ((holding 0x00#8 0xEE#8).setDt 5#8).latch .stackUnderflow,
    .stackUnderflow, by decide, rfl, by decide, rfl, rfl, rfl⟩

theorem witness_DirectEntryRunsHandlerWithoutTick :
    ∃ (s : State) (w : Word) (i : Instr), s.Running ∧ decode w = .ok i ∧ fetch s = .ok w :=
  ⟨holding 0xF3#8 0x07#8, 0xF307#16, .ldVxDt 3#4, by decide, by decide, rfl⟩

theorem witness_DirectEntryOnAnIllegalWord :
    ∃ (s : State) (w : Word), s.Running ∧ wordWellFormed w = false ∧ (decodeAndExecute w s).report = some (.unrecognizedOpcode w) :=
  ⟨State.reset, 0xF218#16, by decide, by decide, rfl⟩

/-- One slot in use and all 16, and the highest return address. -/
theorem witness_ReturnPopsTheCallSite :
    ([((0 : Fin 16), (0 : Fin 17), (1 : Fin 17)), (15, 15, 16)].all fun q =>
      let s : State := { State.reset with sp := q.2.2, stack := stackWith q.1 0xFFFD#16 }
      decide (s.sp.val = q.1.val + 1 ∧ q.2.1.val = q.1.val ∧ (s.stack[q.1]).toNat + 2 ≤ 0xFFFF)) = true := by decide

theorem witness_StackBoundsFault :
    (∃ s : State, s.sp.val = 0) ∧ (∃ s : State, s.sp.val = 16) := ⟨⟨State.reset, rfl⟩, ⟨{ State.reset with sp := 16 }, rfl⟩⟩

theorem witness_CallPushesItsOwnAddress :
    ([((0 : Fin 16), (0 : Fin 17), (1 : Fin 17)), (15, 15, 16)].all fun q =>
      decide (({ State.reset with sp := q.2.1 } : State).sp.val = q.1.val ∧ q.2.2.val = q.1.val + 1)) = true := by decide

theorem witness_JumpSetsPc : ∃ nnn : Addr12, nnn = 0xFFF#12 := ⟨0xFFF#12, rfl⟩

/-- `SkipIfEqualImmediate` and `SkipIfNotEqualImmediate`: the last fetch address, and a state in which both complete. -/
theorem witness_SkipAtTheLastFetchAddress :
    ∃ (s t u : State), s.pc = 0x0FFE#16 ∧ exec (.seVxKk 0#4 0#8) s = .next t ∧ exec (.sneVxKk 0#4 0#8) s = .next u :=
  ⟨State.reset.setPc 0x0FFE#16, State.reset.setPc 0x1002#16, State.reset.setPc 0x1000#16, rfl, rfl, rfl⟩

/-- The highest `pc` at which each of the two distances still fits. -/
theorem witness_SkipIfEqualImmediate :
    (∃ (x : Nibble) (kk : Byte) (s : State), s.readV x = kk ∧ s.pc.toNat + 4 ≤ 0xFFFF) ∧
    (∃ (x : Nibble) (kk : Byte) (s : State), s.readV x ≠ kk ∧ s.pc.toNat + 2 ≤ 0xFFFF) :=
  ⟨⟨15#4, 0x00#8, State.reset.setPc 0xFFFB#16, by decide⟩, ⟨0#4, 0xFF#8, State.reset.setPc 0xFFFD#16, by decide⟩⟩

theorem witness_SkipIfNotEqualImmediate :
    (∃ (x : Nibble) (kk : Byte) (s : State), s.readV x ≠ kk ∧ s.pc.toNat + 4 ≤ 0xFFFF) ∧
    (∃ (x : Nibble) (kk : Byte) (s : State), s.readV x = kk ∧ s.pc.toNat + 2 ≤ 0xFFFF) :=
  ⟨⟨15#4, 0xFF#8, State.reset.setPc 0xFFFB#16, by decide⟩, ⟨0#4, 0x00#8, State.reset.setPc 0xFFFD#16, by decide⟩⟩

theorem witness_SkipIfRegistersDiffer :
    (∃ n : Nibble, n ≠ 0x0#4) ∧
    (∃ (x y : Nibble) (s : State), s.readV x ≠ s.readV y ∧ s.pc.toNat + 4 ≤ 0xFFFF) ∧
    (∃ (x y : Nibble) (s : State), s.readV x = s.readV y ∧ s.pc.toNat + 2 ≤ 0xFFFF) :=
  ⟨⟨0xF#4, by decide⟩, ⟨1#4, 2#4, (State.reset.setV 2#4 0xFF#8).setPc 0xFFFB#16, by decide⟩,
    ⟨1#4, 1#4, State.reset.setPc 0xFFFD#16, by decide⟩⟩

/-- The only hypothesis of `LoadImmediate`, `AddImmediateWritesSumThenCarry`, `RandomMaskedIntoRegister`, `LoadIndex`,
`ClearScreen`, and, with a low nibble that is not 0, of `CopyRegister`. -/
theorem witness_PcHasRoomForTwo : ∃ (s : State) (n : Nibble), s.pc.toNat + 2 ≤ 0xFFFF ∧ n ≠ 0x0#4 :=
  ⟨State.reset.setPc 0xFFFD#16, 0x1#4, by decide⟩

/-- The sum exactly at 0xFFFF. -/
theorem witness_AddToIndex :
    ∃ (x : Nibble) (s : State), s.pc.toNat + 2 ≤ 0xFFFF ∧ s.i.toNat + (s.readV x).toNat ≤ 0xFFFF :=
  ⟨0#4, (State.reset.setI 0xFF00#16).setV 0#4 0xFF#8, by decide⟩

/-- The sum exactly at 0x10000. -/
theorem witness_AddToIndexOverflowFaults :
    ∃ (x : Nibble) (s : State), 0xFFFF < s.i.toNat + (s.readV x).toNat :=
  ⟨0#4, (State.reset.setI 0xFF01#16).setV 0#4 0xFF#8, by decide⟩

/-- A sprite in the bottom right corner. -/
theorem witness_DrawTogglesTheSprite :
    ∃ (x y n : Nibble) (s : State), s.pc.toNat + 2 ≤ 0xFFFF ∧
      SpriteFits s.mem s.i (s.readV x).toNat (s.readV y).toNat n.toNat ∧ spriteBit s.mem s.i 0 0 = true :=
  ⟨0#4, 1#4, 1#4, sprite 56#8 31#8 [(0x300, 0xFF#8)], by decide⟩

/-- The second row of the sprite at 0x1000. -/
theorem witness_DrawRowOutsideMemoryFaults :
    ∃ (x y n : Nibble) (s : State) (row : Nat), row < n.toNat ∧
      SpriteFits s.mem s.i (s.readV x).toNat (s.readV y).toNat row ∧ 0x0FFF < s.i.toNat + row :=
  ⟨0#4, 0#4, 2#4, (withMem [(0xFFF, 0x00#8)]).setI 0xFFF#16, 1, by decide⟩

/-- A column at 64, and a row at 32. -/
theorem witness_DrawBitOutsideGridFaults :
    ∀ q ∈ [(60#8, 0#8, 0, 4), (56#8, 31#8, 1, 7)],
      let s := sprite q.1 q.2.1 [(0x300, if q.2.2.1 = 0 then 0xF8#8 else 0xFF#8), (0x301, 0x01#8)]
      q.2.2.1 < (2#4 : Nibble).toNat ∧ q.2.2.2 < 8 ∧
      SpriteFits s.mem s.i (s.readV 0#4).toNat (s.readV 1#4).toNat q.2.2.1 ∧ s.i.toNat + q.2.2.1 ≤ 0x0FFF ∧
      (Memory.byteAt s.mem (s.i.toNat + q.2.2.1)).getLsbD (7 - q.2.2.2) = true ∧
      (64 ≤ (s.readV 0#4).toNat + q.2.2.2 ∨ 32 ≤ (s.readV 1#4).toNat + q.2.2.1) ∧
      (∀ c < q.2.2.2, (Memory.byteAt s.mem (s.i.toNat + q.2.2.1)).getLsbD (7 - c) = true →
        (s.readV 0#4).toNat + c < 64 ∧ (s.readV 1#4).toNat + q.2.2.1 < 32) := by decide

theorem witness_DrawingTwiceRestoresTheFramebuffer :
    ∃ (x y n : Nibble) (s : State), x ≠ 15#4 ∧ y ≠ 15#4 ∧ s.pc.toNat + 4 ≤ 0xFFFF ∧
      SpriteFits s.mem s.i (s.readV x).toNat (s.readV y).toNat n.toNat ∧
      (∀ k < 2048, framePixel s.fb k = false) ∧
      (∃ row < n.toNat, ∃ col < 8, (Memory.byteAt s.mem (s.i.toNat + row)).getLsbD (7 - col) = true) :=
  ⟨0#4, 1#4, 1#4, sprite 0#8 0#8 [(0x300, 0xF0#8)], by decide, by decide, by decide, by decide,
    fun k _ => by simp [sprite, withMem, State.setMem, State.setI, State.setV, State.reset, framePixel],
    ⟨0, by decide, 0, by decide, by decide⟩⟩

/-- Key 0 and key 15, pressed and released, with room for either distance. -/
theorem witness_SkipIfKeyPressed :
    (∃ (x : Nibble) (s : State), (s.readV x).toNat < 16 ∧ s.keyDown (s.readV x).toNat = true ∧ s.pc.toNat + 4 ≤ 0xFFFF) ∧
    (∃ (x : Nibble) (s : State), (s.readV x).toNat < 16 ∧ s.keyDown (s.readV x).toNat = false ∧ s.pc.toNat + 2 ≤ 0xFFFF) :=
  ⟨⟨0#4, (writeKey 15#4 true (State.reset.setV 0#4 15#8)).setPc 0xFFFB#16, by decide⟩,
    ⟨0#4, State.reset.setPc 0xFFFD#16, by decide⟩⟩

theorem witness_SkipIfKeyNotPressed :
    (∃ (x : Nibble) (s : State), (s.readV x).toNat < 16 ∧ s.keyDown (s.readV x).toNat = false ∧ s.pc.toNat + 4 ≤ 0xFFFF) ∧
    (∃ (x : Nibble) (s : State), (s.readV x).toNat < 16 ∧ s.keyDown (s.readV x).toNat = true ∧ s.pc.toNat + 2 ≤ 0xFFFF) :=
  ⟨⟨0#4, State.reset.setPc 0xFFFB#16, by decide⟩,
    ⟨0#4, (writeKey 15#4 true (State.reset.setV 0#4 15#8)).setPc 0xFFFD#16, by decide⟩⟩

theorem witness_KeyNumberOutOfRangeFaults : ∃ (x : Nibble) (s : State), 16 ≤ (s.readV x).toNat :=
  ⟨0#4, State.reset.setV 0#4 16#8, by decide⟩

theorem witness_LoadFromDelayTimer :
    ∃ (x : Nibble) (s : State), s.pc.toNat + 2 ≤ 0xFFFF ∧ s.Running ∧ fetch s = .ok (0xF#4 ++ x ++ 0x07#8) :=
  ⟨3#4, (holding 0xF3#8 0x07#8).setDt 5#8, by decide, by decide, rfl⟩

theorem witness_LoadDelayTimer :
    ∃ (x : Nibble) (s : State), s.pc.toNat + 2 ≤ 0xFFFF ∧ s.Running ∧ fetch s = .ok (0xF#4 ++ x ++ 0x15#8) :=
  ⟨2#4, (holding 0xF2#8 0x15#8).setV 2#4 0x0A#8, by decide, by decide, rfl⟩

/-- A completed handler, a refused one, and a target that is one too high. -/
theorem witness_EveryHandlerSetsItsTarget :
    (∃ (i : Instr) (s t : State), s.Running ∧ exec i s = .next t ∧ t.Running) ∧
    (∃ (i : Instr) (s : State) (r : Refusal), s.Running ∧ exec i s = .refused r ∧ 0xFFFF < i.target s) :=
  ⟨⟨.cls, State.reset, (State.reset.setFb frameClear).setPc 0x202#16, by decide, rfl, by decide⟩,
    ⟨.cls, State.reset.setPc 0xFFFE#16, .pcOverflow, by decide, rfl, by decide⟩⟩

theorem witness_RegisterFrame :
    (∃ (i : Instr) (s t : State) (r : Nibble), exec i s = .next t ∧ i.destination ≠ some r ∧ (i.writesFlag = true → r ≠ 15#4)) ∧
    (∃ (i : Instr) (s t : State), i.writesIndex = false ∧ exec i s = .next t) :=
  ⟨⟨.addVxKk 0#4 1#8, State.reset, (((State.reset.setV 0#4 1#8).setV 15#4 0#8).setPc 0x202#16), 14#4, rfl, by decide, by decide⟩,
    ⟨.jpNnn 0x300#12, State.reset, State.reset.setPc 0x300#16, rfl, rfl⟩⟩

/-- An instruction outside each of the groups of the noninterference statements. -/
theorem witness_Noninterference :
    (Instr.cls).usesStack = false ∧ (Instr.ret).usesFrame = false ∧ (Instr.drwVxVyN 0#4 1#4 5#4).usesKeys = false ∧
    (Instr.skpVx 0#4).usesDelay = false ∧ (Instr.cls).isDraw = false := by decide

/-- `OnlyKeySkipsReadTheKeys`, `NoInstructionWritesMemory`, `RandomByteDrawnByRndOnly`: a next state of `exec`, and of `step`. -/
theorem witness_NextState :
    (∃ (i : Instr) (s t : State), exec i s = .next t) ∧ (∃ s t : State, step s = .next t) :=
  ⟨⟨.rndVxKk 1#4 0xFF#8, State.reset, { State.reset.setV 1#4 (0xFF#8 &&& Config.rand 0) with rndCount := 1, pc := 0x202#16 }, rfl⟩,
    ⟨holding 0x13#8 0x00#8, (holding 0x13#8 0x00#8).setPc 0x300#16, rfl⟩⟩

theorem witness_FaultsArePreciseExceptInDraw :
    ∃ (i : Instr) (s t : State) (f : Fault), s.Running ∧ i.isDraw = false ∧ exec i s = .next t ∧ t.faultInfo = some f :=
  ⟨.ret, State.reset, State.reset.latch .stackUnderflow, .stackUnderflow, by decide, rfl, rfl, rfl⟩

theorem witness_TwelveInstructionsCannotFault :
    ∃ (i : Instr) (s t : State), s.Running ∧ i.canFault = false ∧ exec i s = .next t :=
  ⟨.jpNnn 0xFFF#12, State.reset, State.reset.setPc 0xFFF#16, by decide, rfl, rfl⟩

/-- The skip at the last legal fetch address, which leaves the highest `pc`, and a full stack of highest addresses. -/
theorem witness_StepKeepsPcAndStackBounded :
    let s : State := { withMem [(0xFFE, 0x30#8), (0xFFF, 0x00#8)] with
      pc := 0xFFE#16, sp := 16, stack := Vector.replicate 16 0x0FFE#16 }
    s.Bounded ∧ step s = .next (s.setPc 0x1002#16) ∧ (s.setPc 0x1002#16).Bounded := by
  refine ⟨by decide, rfl, by decide⟩

theorem witness_BoundedStepAlwaysAnswers : ∃ s : State, s.Bounded ∧ 0x0FFE < s.pc.toNat :=
  ⟨State.reset.setPc 0x1002#16, by decide⟩

theorem witness_SoundTimerStaysSilent :
    ∃ (o : Operation) (s t : State), s.Silent ∧ perform o s = .next t :=
  ⟨.step, holding 0x13#8 0x00#8, (holding 0x13#8 0x00#8).setPc 0x300#16, by decide, rfl⟩

theorem witness_EveryOperationKeepsMemoryCanonical :
    ∃ (o : Operation) (s t : State), s.Canonical ∧ perform o s = .next t ∧ t.mem = [(0x200, 0x34#8), (0x201, 0x00#8)] :=
  ⟨.loadProgram [0x34#8], holding 0x12#8 0x00#8, withMem [(0x200, 0x34#8), (0x201, 0x00#8)], by decide, rfl, rfl⟩

/-- A step at the highest `pc`, and a load that is too large, from a state no session from reset need reach. -/
theorem witness_OperationKeepsTheInvariants :
    ∃ s : State, s.Bounded ∧ s.Silent ∧ s.Canonical ∧ Operation.step.ordinary = true ∧
      (Operation.loadProgram (List.replicate 0x0E01 0x00#8)).ordinary = true :=
  ⟨{ holding 0x12#8 0x00#8 with pc := 0x1002#16, sp := 16, stack := Vector.replicate 16 0x0FFE#16 }, by decide, rfl, by decide,
    rfl, rfl⟩

/-- A session that loads, steps, presses a key and resets. -/
theorem witness_EverySessionFromResetHasAMeaning :
    ∃ os : List Operation, (∀ o ∈ os, o.ordinary = true) ∧ os.length = 4 :=
  ⟨[.loadProgram [0x13#8, 0x00#8], .step, .writeKey 15#4 true, .reset], by decide⟩

/-- The addresses where the clauses meet. -/
theorem witness_ReadBounds :
    (hostReadByte 0xFFF (withMem [(0xFFF, 0x21#8)])).toOption = some 0x21#8 ∧
    (hostReadByte 0x1000 State.reset).toOption = none ∧
    (hostReadWord 0xFFE (withMem [(0xFFE, 0x43#8), (0xFFF, 0x21#8)])).toOption = some 0x4321#16 ∧
    (hostReadWord 0xFFF (withMem [(0xFFF, 0x21#8)])).toOption = none ∧ (hostReadWord 0x1000 State.reset).toOption = none := by decide

/-- An image of the largest size, and one a byte longer. -/
theorem witness_LoadCopiesTheImage :
    (∃ bytes : List Byte, bytes.length = 0x0E00) ∧ (∃ bytes : List Byte, bytes.length = 0x0E01) :=
  ⟨⟨List.replicate 0x0E00 0x00#8, List.length_replicate⟩, ⟨List.replicate 0x0E01 0x00#8, List.length_replicate⟩⟩

end Sys2Proof.Tests
end

section
/-! The host's view of memory (spec/20_memory.md). -/

namespace Sys2Proof.Machine

/-- Settles O56: the address is tested as it is, against 4096, so the bound of R51 is the bound of `Memory.readByte`. -/
theorem readByteInRangeOrFaults : Obligations.ReadByteInRangeOrFaults := by
  intro a s
  constructor
  · intro inRange
    exact Memory.readByte_ok (Nat.lt_succ_of_le inRange)
  · intro beyond
    exact Memory.readByte_error (Nat.succ_le_of_lt beyond)

end Sys2Proof.Machine
end

section
/-! The end of a step: the timer tick and its beep (spec/40_step_cycle.md). -/

namespace Sys2Proof.Machine

/-- The tick reads the sound timer as it stood before it goes down (R95). -/
theorem timerTick_beep (s : State) : (timerTick s).2 = true ↔ s.st = 0x01#8 :=
  beq_iff_eq

/-- After a completed handler the step is the tick of the handler's state, with the tick's beep and no report (R94). -/
theorem cycle_of_completed {s t : State} {w : Word} {i : Instr} (running : s.Running) (fetched : fetch s = .ok w)
    (decoded : decode w = .ok i) (executed : exec i s = .next t) (completed : t.Running) :
    cycle s = { outcome := .next (timerTick t).1, beep := (timerTick t).2, report := none } := by
  rw [cycle_of_decode running fetched decoded, executed]
  rcases finishStep_next t with ⟨f, faulted, -⟩ | ⟨-, ticked⟩
  · exact absurd (completed.symm.trans faulted) (Option.some_ne_none f).symm
  · exact ticked

/-- Settles O8: the step ends in the tick whatever the instruction was, and the tick's two answers are `timerTick_state` and
`timerTick_beep`. -/
theorem timersTickAfterEveryCompletedHandler : Obligations.TimersTickAfterEveryCompletedHandler := by
  intro s t w i running fetched decoded executed completed
  have ticked := cycle_of_completed running fetched decoded executed completed
  constructor
  · rw [step, ticked, timerTick_state, tickDown, tickDown]
  · rw [ticked]
    exact timerTick_beep t

end Sys2Proof.Machine
end

section
/-! The absolute jump (spec/41_flow.md). -/

namespace Sys2Proof.Machine

/-- Zero extension is four zero bits put above the address (R73). -/
theorem zextAddr_eq_append (nnn : Addr12) : zextAddr nnn = 0x0#4 ++ nnn :=
  BitVec.setWidth_eq_append (by decide)

/-- `JP` answers its target, which it does not check (R111). -/
theorem exec_jpNnn (nnn : Addr12) (s : State) : exec (.jpNnn nnn) s = .next (s.setPc (zextAddr nnn)) := rfl

/-- A word read at the last byte of memory faults on its second byte (R52, D14). -/
theorem Memory.readWord_last (m : List Host.Cell) :
    Memory.readWord m 0xFFF = .error (.outOfBoundsMemoryAccess 0x1000) := by
  have first := Memory.readByte_ok (m := m) (a := 0xFFF) (by decide)
  have second := Memory.readByte_error (m := m) (a := 0x1000) (by decide)
  simp only [Memory.readWord, first, second]

/-- Settles O17: the target has no condition, and 0xFFF is an address whose second byte is not there to be fetched. -/
theorem jumpSetsPc : Obligations.JumpSetsPc := by
  intro nnn s
  refine ⟨?_, ?_, ?_⟩
  · have decoded := decode_jpNnn (fieldOp_nnn 0x1#4 nnn)
    rwa [fieldNnn_nnn] at decoded
  · rw [exec_jpNnn, zextAddr_eq_append, State.setPc]
  · rintro rfl
    exact ⟨0x1000, Memory.readWord_last s.mem⟩

end Sys2Proof.Machine
end

section
/-! The skips on an immediate (spec/42_skip.md R120, R121). -/

namespace Sys2Proof.Machine

/-- A skip that is taken moves `pc` on by 4 and changes nothing else (R93). -/
theorem advance_skip_taken {s : State} {taken : Bool} (condition : taken = true) (room : s.pc.toNat + 4 ≤ 0xFFFF) :
    advance (skipDistance taken) s = .next { s with pc := s.pc + 4#16 } := by
  subst condition
  exact advance_of_le room

/-- A skip that is not taken moves `pc` on by 2 and changes nothing else (R93). -/
theorem advance_skip_not_taken {s : State} {taken : Bool} (condition : taken = false) (room : s.pc.toNat + 2 ≤ 0xFFFF) :
    advance (skipDistance taken) s = .next { s with pc := s.pc + 2#16 } := by
  subst condition
  exact advance_of_le room

/-- The `pc` after a skip instruction that completes tells whether the skip was taken: 2 and 4 differ modulo 2^16. -/
theorem advance_skip_pc_iff {s t : State} {taken : Bool} (completed : advance (skipDistance taken) s = .next t) :
    t.pc = s.pc + 4#16 ↔ taken = true := by
  obtain ⟨-, rfl⟩ := advance_next completed
  cases taken <;> simp [skipDistance, BitVec.ofNat_add]

/-- `SE Vx,kk` compares for equality (R120). -/
theorem exec_seVxKk (x : Nibble) (kk : Byte) (s : State) :
    exec (.seVxKk x kk) s = advance (skipDistance (s.readV x == kk)) s := rfl

/-- `SNE Vx,kk` compares for difference (R121). -/
theorem exec_sneVxKk (x : Nibble) (kk : Byte) (s : State) :
    exec (.sneVxKk x kk) s = advance (skipDistance (s.readV x != kk)) s := rfl

/-- A word read that begins outside memory faults on its first byte (R52, D14). -/
theorem Memory.readWord_beyond {m : List Host.Cell} {a : Nat} (beyond : 4096 ≤ a) :
    Memory.readWord m a = .error (.outOfBoundsMemoryAccess a) := by
  simp only [Memory.readWord, Memory.readByte_error beyond]

/-- A skip taken at the last address that can be fetched leaves memory, so the next fetch faults (R120). -/
theorem fetch_after_skip_at_last {s : State} (last : s.pc = 0x0FFE#16) :
    fetch { s with pc := s.pc + 4#16 } = .error (.outOfBoundsMemoryAccess 0x1002) := by
  rw [last]
  exact Memory.readWord_beyond (m := s.mem) (a := 0x1002) (by decide)

/-- Settles O19: the distance is 4 exactly when the comparison of R120 holds. -/
theorem skipIfEqualImmediate : Obligations.SkipIfEqualImmediate := by
  intro x kk s
  refine ⟨?_, ?_, ?_, ?_⟩
  · have decoded := decode_seVxKk (fieldOp_xkk 0x3#4 x kk)
    rwa [fieldX_xkk, fieldKk_xkk] at decoded
  · intro equal room
    rw [exec_seVxKk]
    exact advance_skip_taken (beq_iff_eq.mpr equal) room
  · intro different room
    rw [exec_seVxKk]
    exact advance_skip_not_taken (beq_eq_false_iff_ne.mpr different) room
  · intro last
    exact ⟨0x1002, fetch_after_skip_at_last last⟩

/-- Settles O20: the condition of R121 is the negation of the one of R120, so that exactly one of the two skips is taken. -/
theorem skipIfNotEqualImmediate : Obligations.SkipIfNotEqualImmediate := by
  intro x kk s
  refine ⟨?_, ?_, ?_, ?_, ?_⟩
  · have decoded := decode_sneVxKk (fieldOp_xkk 0x4#4 x kk)
    rwa [fieldX_xkk, fieldKk_xkk] at decoded
  · intro different room
    rw [exec_sneVxKk]
    exact advance_skip_taken (bne_iff_ne.mpr different) room
  · intro equal room
    rw [exec_sneVxKk]
    exact advance_skip_not_taken (bne_eq_false_iff_eq.mpr equal) room
  · intro t u executedSe executedSne
    rw [exec_seVxKk] at executedSe
    rw [exec_sneVxKk] at executedSne
    rw [advance_skip_pc_iff executedSe, advance_skip_pc_iff executedSne, beq_iff_eq, bne_iff_ne, not_ne_iff]
  · intro last
    exact ⟨0x1002, fetch_after_skip_at_last last⟩

end Sys2Proof.Machine
end

section
/-! The register loads (spec/43_register.md R130, R132). -/

namespace Sys2Proof.Machine

/-- A register write touches no `pc`, so the advance after it starts from the old one (R20, R93). -/
theorem advance_two_setV {s : State} (x : Nibble) (b : Byte) (room : s.pc.toNat + 2 ≤ 0xFFFF) :
    advance 2 (s.setV x b) = .next { s.setV x b with pc := s.pc + 2#16 } :=
  advance_of_le (s := s.setV x b) room

/-- `LD Vx,kk` writes the immediate (R130). -/
theorem exec_ldVxKk (x : Nibble) (kk : Byte) (s : State) : exec (.ldVxKk x kk) s = advance 2 (s.setV x kk) := rfl

/-- `LD Vx,Vy` writes the value of the second register (R132). -/
theorem exec_ldVxVy (x y : Nibble) (s : State) : exec (.ldVxVy x y) s = advance 2 (s.setV x (s.readV y)) := rfl

/-- In class 8 the low nibble 0 is the only legal one (R76, D15). -/
theorem illegalWord_of_class8 {w : Word} (class8 : fieldOp w = 0x8#4) (low : fieldN w ≠ 0x0#4) : IllegalWord w :=
  .inr (.inr (.inr (.inl ⟨class8, low⟩)))

/-- Settles O23: the decoder gives back the operands of the word, and the handler is one register write and an advance by 2. -/
theorem loadImmediate : Obligations.LoadImmediate := by
  intro x kk s room
  constructor
  · have decoded := decode_ldVxKk (fieldOp_xkk 0x6#4 x kk)
    rwa [fieldX_xkk, fieldKk_xkk] at decoded
  · rw [exec_ldVxKk]
    exact advance_two_setV x kk room

/-- Settles O25: the low nibble decides between `LD Vx,Vy` and an illegal word; the handler is the register write of R132, with
`V[y]` read before it. -/
theorem copyRegister : Obligations.CopyRegister := by
  intro x y s room
  refine ⟨?_, ?_, ?_⟩
  · have decoded := decode_ldVxVy (fieldOp_xyn 0x8#4 x y 0x0#4) (fieldN_xyn 0x8#4 x y 0x0#4)
    rwa [fieldX_xyn, fieldY_xyn] at decoded
  · intro n other
    have low : fieldN (0x8#4 ++ x ++ y ++ n) ≠ 0x0#4 := by rwa [fieldN_xyn]
    exact decode_illegal (illegalWord_of_class8 (fieldOp_xyn 0x8#4 x y n) low)
  · rw [exec_ldVxVy]
    exact advance_two_setV x (s.readV y) room

end Sys2Proof.Machine
end

section
/-! Clearing the display (spec/45_display.md R150). -/

namespace Sys2Proof.Machine

/-- `CLS` puts in the clear framebuffer and does not look at the one before; `VF` is not among its writes (R150). -/
theorem exec_cls (s : State) : exec .cls s = advance 2 (s.setFb frameClear) := rfl

/-- Settles O30: the framebuffer put in is `frameClear`, of which every pixel is 0, and the advance starts from the old `pc`. -/
theorem clearScreen : Obligations.ClearScreen := by
  refine ⟨decode_cls, fun s room => ⟨frameClear, ?_, ?_⟩⟩
  · intro k _
    exact framePixel_clear k
  · rw [exec_cls]
    exact advance_of_le (s := s.setFb frameClear) room

end Sys2Proof.Machine
end

section
/-! The decoder and the encoder are inverse to each other (spec/30_encoding.md R70 to R79). -/

namespace Sys2Proof

/-! ### A legal word put together again from its fields -/

section
variable {w : Word} {o : Nibble}

theorem append_fieldNnn (op : fieldOp w = o) : o ++ fieldNnn w = w :=
  op ▸ word_eq_op_nnn w

theorem append_fieldX_fieldKk (op : fieldOp w = o) : o ++ fieldX w ++ fieldKk w = w :=
  op ▸ word_eq_op_x_kk w

theorem append_fieldX_low {low : Byte} (op : fieldOp w = o) (kk : fieldKk w = low) : o ++ fieldX w ++ low = w :=
  kk ▸ append_fieldX_fieldKk op

theorem append_fieldX_fieldY_low {low : Nibble} (op : fieldOp w = o) (n : fieldN w = low) :
    o ++ fieldX w ++ fieldY w ++ low = w := by
  subst op n
  exact word_eq_op_x_y_n w

end

/-- Every word is the encoding of the instruction it decodes to, or is illegal and rejected by name (R75, R76). -/
theorem decode_legal_or_illegal (w : Word) :
    (∃ i, decode w = .ok i ∧ encode i = w) ∨ (IllegalWord w ∧ decode w = .error (.unrecognizedOpcode w)) := by
  rcases decode_cases w with ⟨rfl, d⟩ | ⟨rfl, d⟩ | ⟨op, d⟩ | ⟨op, d⟩ | ⟨op, d⟩ | ⟨op, d⟩ | ⟨op, d⟩ | ⟨op, d⟩ |
    ⟨op, n, d⟩ | ⟨op, n, d⟩ | ⟨op, d⟩ | ⟨op, d⟩ | ⟨op, d⟩ | ⟨op, kk, d⟩ | ⟨op, kk, d⟩ | ⟨op, kk, d⟩ | ⟨op, kk, d⟩ |
    ⟨op, kk, d⟩ | illegal
  · exact .inl ⟨.cls, d, rfl⟩
  · exact .inl ⟨.ret, d, rfl⟩
  · exact .inl ⟨.jpNnn _, d, append_fieldNnn op⟩
  · exact .inl ⟨.callNnn _, d, append_fieldNnn op⟩
  · exact .inl ⟨.seVxKk _ _, d, append_fieldX_fieldKk op⟩
  · exact .inl ⟨.sneVxKk _ _, d, append_fieldX_fieldKk op⟩
  · exact .inl ⟨.ldVxKk _ _, d, append_fieldX_fieldKk op⟩
  · exact .inl ⟨.addVxKk _ _, d, append_fieldX_fieldKk op⟩
  · exact .inl ⟨.ldVxVy _ _, d, append_fieldX_fieldY_low op n⟩
  · exact .inl ⟨.sneVxVy _ _, d, append_fieldX_fieldY_low op n⟩
  · exact .inl ⟨.ldINnn _, d, append_fieldNnn op⟩
  · exact .inl ⟨.rndVxKk _ _, d, append_fieldX_fieldKk op⟩
  · exact .inl ⟨.drwVxVyN _ _ _, d, append_fieldX_fieldY_low op rfl⟩
  · exact .inl ⟨.skpVx _, d, append_fieldX_low op kk⟩
  · exact .inl ⟨.sknpVx _, d, append_fieldX_low op kk⟩
  · exact .inl ⟨.ldVxDt _, d, append_fieldX_low op kk⟩
  · exact .inl ⟨.ldDtVx _, d, append_fieldX_low op kk⟩
  · exact .inl ⟨.addIVx _, d, append_fieldX_low op kk⟩
  · exact .inr illegal

/-- Decoding the word of an instruction: its class selects the row, and each field gives back its operand. -/
theorem decode_encode (i : Instr) : decode (encode i) = .ok i := by
  cases i with
  | cls => exact decode_cls
  | ret => exact decode_ret
  | jpNnn nnn => rw [encode, decode_jpNnn (fieldOp_nnn _ _), fieldNnn_nnn]
  | callNnn nnn => rw [encode, decode_callNnn (fieldOp_nnn _ _), fieldNnn_nnn]
  | seVxKk x kk => rw [encode, decode_seVxKk (fieldOp_xkk _ _ _), fieldX_xkk, fieldKk_xkk]
  | sneVxKk x kk => rw [encode, decode_sneVxKk (fieldOp_xkk _ _ _), fieldX_xkk, fieldKk_xkk]
  | ldVxKk x kk => rw [encode, decode_ldVxKk (fieldOp_xkk _ _ _), fieldX_xkk, fieldKk_xkk]
  | addVxKk x kk => rw [encode, decode_addVxKk (fieldOp_xkk _ _ _), fieldX_xkk, fieldKk_xkk]
  | ldVxVy x y => rw [encode, decode_ldVxVy (fieldOp_xyn _ _ _ _) (fieldN_xyn _ _ _ _), fieldX_xyn, fieldY_xyn]
  | sneVxVy x y => rw [encode, decode_sneVxVy (fieldOp_xyn _ _ _ _) (fieldN_xyn _ _ _ _), fieldX_xyn, fieldY_xyn]
  | ldINnn nnn => rw [encode, decode_ldINnn (fieldOp_nnn _ _), fieldNnn_nnn]
  | rndVxKk x kk => rw [encode, decode_rndVxKk (fieldOp_xkk _ _ _), fieldX_xkk, fieldKk_xkk]
  | drwVxVyN x y n => rw [encode, decode_drwVxVyN (fieldOp_xyn _ _ _ _), fieldX_xyn, fieldY_xyn, fieldN_xyn]
  | skpVx x => rw [encode, decode_skpVx (fieldOp_xkk _ _ _) (fieldKk_xkk _ _ _), fieldX_xkk]
  | sknpVx x => rw [encode, decode_sknpVx (fieldOp_xkk _ _ _) (fieldKk_xkk _ _ _), fieldX_xkk]
  | ldVxDt x => rw [encode, decode_ldVxDt (fieldOp_xkk _ _ _) (fieldKk_xkk _ _ _), fieldX_xkk]
  | ldDtVx x => rw [encode, decode_ldDtVx (fieldOp_xkk _ _ _) (fieldKk_xkk _ _ _), fieldX_xkk]
  | addIVx x => rw [encode, decode_addIVx (fieldOp_xkk _ _ _) (fieldKk_xkk _ _ _), fieldX_xkk]

/-- Settles O1: the class of the word selects its row, and the fields give back the operands (`decode_encode`). -/
theorem decodeInvertsEncode : Obligations.DecodeInvertsEncode :=
  decode_encode

/-- Settles O2: the word decodes to one instruction only, and `decode_legal_or_illegal` names it together with its encoding. -/
theorem encodeInvertsDecode : Obligations.EncodeInvertsDecode := by
  intro w i decoded
  rcases decode_legal_or_illegal w with ⟨j, decoded', encoded⟩ | ⟨-, rejected⟩
  · obtain rfl : i = j := Except.ok.inj (decoded.symm.trans decoded')
    exact encoded
  · rw [rejected] at decoded
    cases decoded

/-! ### The table of R74 -/

/-- A word that some row of the table accepts decodes: the row's mask leaves the fields its decoding lemma asks for. -/
theorem decode_of_accepts {r : Row} {w : Word} (row : r ∈ opcodeTable) (accepted : r.accepts w = true) :
    ∃ i, decode w = .ok i := by
  simp only [opcodeTable, List.cons_append, List.nil_append, List.mem_cons, List.not_mem_nil, or_false] at row
  rcases row with rfl | rfl | rfl | rfl | rfl | rfl | rfl | rfl | rfl | rfl | rfl | rfl | rfl | rfl | rfl | rfl | rfl | rfl
  · exact ⟨_, (accepts_FFFF _ _).mp accepted ▸ decode_cls⟩
  · exact ⟨_, (accepts_FFFF _ _).mp accepted ▸ decode_ret⟩
  · exact ⟨_, decode_jpNnn ((accepts_F000 _ _ (by decide)).mp accepted)⟩
  · exact ⟨_, decode_callNnn ((accepts_F000 _ _ (by decide)).mp accepted)⟩
  · exact ⟨_, decode_seVxKk ((accepts_F000 _ _ (by decide)).mp accepted)⟩
  · exact ⟨_, decode_sneVxKk ((accepts_F000 _ _ (by decide)).mp accepted)⟩
  · exact ⟨_, decode_ldVxKk ((accepts_F000 _ _ (by decide)).mp accepted)⟩
  · exact ⟨_, decode_addVxKk ((accepts_F000 _ _ (by decide)).mp accepted)⟩
  · obtain ⟨op, n⟩ := (accepts_F00F _ _ (by decide) (by decide)).mp accepted
    exact ⟨_, decode_ldVxVy op n⟩
  · obtain ⟨op, n⟩ := (accepts_F00F _ _ (by decide) (by decide)).mp accepted
    exact ⟨_, decode_sneVxVy op n⟩
  · exact ⟨_, decode_ldINnn ((accepts_F000 _ _ (by decide)).mp accepted)⟩
  · exact ⟨_, decode_rndVxKk ((accepts_F000 _ _ (by decide)).mp accepted)⟩
  · exact ⟨_, decode_drwVxVyN ((accepts_F000 _ _ (by decide)).mp accepted)⟩
  · obtain ⟨op, kk⟩ := (accepts_F0FF _ _ (by decide)).mp accepted
    exact ⟨_, decode_skpVx op kk⟩
  · obtain ⟨op, kk⟩ := (accepts_F0FF _ _ (by decide)).mp accepted
    exact ⟨_, decode_sknpVx op kk⟩
  · obtain ⟨op, kk⟩ := (accepts_F0FF _ _ (by decide)).mp accepted
    exact ⟨_, decode_ldVxDt op kk⟩
  · obtain ⟨op, kk⟩ := (accepts_F0FF _ _ (by decide)).mp accepted
    exact ⟨_, decode_ldDtVx op kk⟩
  · obtain ⟨op, kk⟩ := (accepts_F0FF _ _ (by decide)).mp accepted
    exact ⟨_, decode_addIVx op kk⟩

theorem row_mem_opcodeTable (i : Instr) : i.row ∈ opcodeTable := by
  cases i <;> simp [Instr.row, opcodeTable]

/-- The word of an instruction is accepted by its row. -/
theorem row_accepts_encode (i : Instr) : i.row.accepts (encode i) = true := by
  cases i with
  | cls => exact Laws.EncodeMatchesRow.cls
  | ret => exact Laws.EncodeMatchesRow.ret
  | jpNnn nnn => exact Laws.EncodeMatchesRow.jpNnn nnn
  | callNnn nnn => exact Laws.EncodeMatchesRow.callNnn nnn
  | seVxKk x kk => exact Laws.EncodeMatchesRow.seVxKk x kk
  | sneVxKk x kk => exact Laws.EncodeMatchesRow.sneVxKk x kk
  | ldVxKk x kk => exact Laws.EncodeMatchesRow.ldVxKk x kk
  | addVxKk x kk => exact Laws.EncodeMatchesRow.addVxKk x kk
  | ldVxVy x y => exact Laws.EncodeMatchesRow.ldVxVy x y
  | sneVxVy x y => exact Laws.EncodeMatchesRow.sneVxVy x y
  | ldINnn nnn => exact Laws.EncodeMatchesRow.ldINnn nnn
  | rndVxKk x kk => exact Laws.EncodeMatchesRow.rndVxKk x kk
  | drwVxVyN x y n => exact Laws.EncodeMatchesRow.drwVxVyN x y n
  | skpVx x => exact Laws.EncodeMatchesRow.skpVx x
  | sknpVx x => exact Laws.EncodeMatchesRow.sknpVx x
  | ldVxDt x => exact Laws.EncodeMatchesRow.ldVxDt x
  | ldDtVx x => exact Laws.EncodeMatchesRow.ldDtVx x
  | addIVx x => exact Laws.EncodeMatchesRow.addIVx x

/-- Two rows of the table whose patterns agree under both masks are one row. -/
theorem row_eq_of_patterns_agree :
    ∀ r ∈ opcodeTable, ∀ q ∈ opcodeTable, r.pattern &&& q.mask = q.pattern &&& r.mask → r = q := by
  decide

/-- No two rows of the table accept a common word. -/
theorem row_unique {r q : Row} {w : Word} (hr : r ∈ opcodeTable) (hq : q ∈ opcodeTable)
    (acceptsR : r.accepts w = true) (acceptsQ : q.accepts w = true) : r = q := by
  apply row_eq_of_patterns_agree r hr q hq
  rw [← beq_iff_eq.mp acceptsR, ← beq_iff_eq.mp acceptsQ, BitVec.and_assoc, BitVec.and_assoc, BitVec.and_comm r.mask]

/-- The well-formed words are those that decode. -/
theorem wordWellFormed_iff {w : Word} : wordWellFormed w = true ↔ ∃ i, decode w = .ok i := by
  rw [wordWellFormed, List.any_eq_true]
  constructor
  · rintro ⟨r, row, accepted⟩
    exact decode_of_accepts row accepted
  · rintro ⟨i, decoded⟩
    rw [← encodeInvertsDecode w i decoded]
    exact ⟨i.row, row_mem_opcodeTable i, row_accepts_encode i⟩

/-- Every other word is rejected by name (R76). -/
theorem decode_of_not_wellFormed {w : Word} (h : wordWellFormed w = false) :
    decode w = .error (.unrecognizedOpcode w) := by
  rcases decode_legal_or_illegal w with ⟨i, decoded, -⟩ | ⟨-, rejected⟩
  · rw [wordWellFormed_iff.mpr ⟨i, decoded⟩] at h
    cases h
  · exact rejected

/-- Settles O3: the rows exclude each other, and the word's own row accepts it because the word is its instruction's encoding. -/
theorem decodeSelectsOneRowOrFails : Obligations.DecodeSelectsOneRowOrFails := by
  intro w
  cases legal : wordWellFormed w with
  | false => exact .inl ⟨rfl, decode_of_not_wellFormed legal⟩
  | true =>
    obtain ⟨i, decoded⟩ := wordWellFormed_iff.mp legal
    have own : i.row.accepts w = true := encodeInvertsDecode w i decoded ▸ row_accepts_encode i
    refine .inr ⟨i, decoded, row_mem_opcodeTable i, fun r row => ⟨fun accepted => ?_, ?_⟩⟩
    · exact row_unique row (row_mem_opcodeTable i) accepted own
    · rintro rfl
      exact own

/-- The decoder rejects exactly the words of the table of R76. -/
theorem decode_error_iff {w : Word} : decode w = .error (.unrecognizedOpcode w) ↔ IllegalWord w := by
  constructor
  · intro rejected
    rcases decode_legal_or_illegal w with ⟨i, decoded, -⟩ | ⟨illegal, -⟩
    · rw [rejected] at decoded
      cases decoded
    · exact illegal
  · exact decode_illegal

/-- Settles O4: the statement's table has one line for the classes 8 and 9, `IllegalWord` has two. -/
theorem illegalWordsByClass : Obligations.IllegalWordsByClass := by
  intro w
  rw [decode_error_iff, IllegalWord, or_and_right, or_assoc]

/-! ### Instructions as bytes -/

/-- The two bytes of a word in memory order decode as that word (R70). -/
theorem decodeBytes_word (w : Word) (rest : List Byte) :
    decodeBytes (highByte w :: lowByte w :: rest) = (decode w).map (·, rest) := by
  rw [decodeBytes, wordOfBytes_high_low]
  cases decode w <;> rfl

/-- Settles O5: the bytes are those of one word, and what follows them is handed on. -/
theorem decodeBytesReadsTwoBytes : Obligations.DecodeBytesReadsTwoBytes := by
  constructor
  · intro i rest
    rw [encodeBytes, List.cons_append, List.cons_append, List.nil_append, decodeBytes_word, decode_encode]
    rfl
  · intro hi lo rest illegal
    rw [decodeBytes, wordOfBytes, illegal]

/-- Settles O6: the eight legal words are encodings, and the ninth is of class F with another low byte than the three of R76. -/
theorem sampleWordsDecode : Obligations.SampleWordsDecode :=
  ⟨decode_encode .cls, decode_encode (.jpNnn 0xFFF#12), decode_encode (.seVxKk 15#4 0xFF#8),
    decode_encode (.ldVxVy 1#4 2#4), decode_encode (.ldINnn 0xFFF#12), decode_encode (.drwVxVyN 0#4 1#4 2#4),
    decode_encode (.sknpVx 15#4), decode_encode (.ldDtVx 15#4), decode_illegal (by decide)⟩

end Sys2Proof
end

section
/-! Every handler in one form (spec/40_step_cycle.md R93): it acts on the state and then sets `pc` to the target of the
instruction, or it faults. -/

namespace Sys2Proof.Machine

/-- What the handler of an instruction does before it sets `pc`, or the fault it raises; `exec_eq` ties it to `exec`. -/
def handlerEffect (i : Instr) (s : State) : Except Fault State :=
  match i with
  | .cls => .ok (s.setFb frameClear)
  | .ret => s.pop.map Prod.snd
  | .callNnn _ => s.push s.pc
  | .jpNnn _ | .seVxKk _ _ | .sneVxKk _ _ | .sneVxVy _ _ => .ok s
  | .ldVxKk x kk => .ok (s.setV x kk)
  | .addVxKk x kk => .ok ((s.setV x (s.readV x + kk)).setV 15#4 (carryFlag (s.readV x) (s.readV x + kk)))
  | .ldVxVy x y => .ok (s.setV x (s.readV y))
  | .ldINnn nnn => .ok (s.setI (zextAddr nnn))
  | .rndVxKk x kk => .ok (s.nextRandom.2.setV x (kk &&& s.nextRandom.1))
  | .drwVxVyN x y n =>
    (drawRows s.mem s.i (s.readV x).toNat (s.readV y).toNat (List.range n.toNat) { fb := s.fb, vf := 0x00#8 }).map
      fun c => (s.setFb c.fb).setV 15#4 c.vf
  | .skpVx x | .sknpVx x => (s.keyOperand x).map fun _ => s
  | .ldVxDt x => .ok (s.setV x s.dt)
  | .ldDtVx x => .ok (s.setDt (s.readV x))
  | .addIVx x =>
    if s.indexSum x > 0xFFFF then .error (.indexOverflow (s.indexSum x)) else .ok (s.setI (BitVec.ofNat 16 (s.indexSum x)))

/-- The state in which a faulting handler sets the latch: the old one, but for `DRW`, which leaves free values (R191, D12). -/
def faultBase (i : Instr) (s : State) : State := if i.isDraw then s.spoilDraw else s

/-- The end of a handler: a fault is latched, and otherwise `pc` takes the target (R93, R97). -/
def endHandler (i : Instr) (s : State) : Except Fault State → Host.Outcome State Fault Refusal
  | .error f => raise f (faultBase i s)
  | .ok t => goto (i.target s) t

/-- A target that fits an immediate address is always reached. -/
theorem goto_addr12 (nnn : Addr12) (s : State) : goto nnn.toNat s = .next (s.setPc (zextAddr nnn)) := by
  have bound := nnn.isLt
  rw [goto, if_pos (by omega), zextAddr, BitVec.ofNat_toNat]

section
variable {x : Nibble} {s : State}

/-- `SKP` on a key number below 16 (R160). -/
theorem exec_skpVx (small : (s.readV x).toNat < 16) :
    exec (.skpVx x) s = advance (skipDistance (s.keyDown (s.readV x).toNat)) s := by
  show execSkpVx x s = _
  rcases s.keyOperand_cases x with ⟨-, operand⟩ | ⟨large, -⟩
  · rw [execSkpVx, operand]
  · omega

/-- `SKP` on any other faults (D8). -/
theorem exec_skpVx_large (large : 16 ≤ (s.readV x).toNat) :
    exec (.skpVx x) s = raise (.keyIndexOutOfRange (s.readV x)) s := by
  show execSkpVx x s = _
  rcases s.keyOperand_cases x with ⟨small, -⟩ | ⟨-, operand⟩
  · omega
  · rw [execSkpVx, operand]

/-- `SKNP` on a key number below 16 (R161). -/
theorem exec_sknpVx (small : (s.readV x).toNat < 16) :
    exec (.sknpVx x) s = advance (skipDistance (!s.keyDown (s.readV x).toNat)) s := by
  show execSknpVx x s = _
  rcases s.keyOperand_cases x with ⟨-, operand⟩ | ⟨large, -⟩
  · rw [execSknpVx, operand]
  · omega

/-- `SKNP` on any other faults (D8). -/
theorem exec_sknpVx_large (large : 16 ≤ (s.readV x).toNat) :
    exec (.sknpVx x) s = raise (.keyIndexOutOfRange (s.readV x)) s := by
  show execSknpVx x s = _
  rcases s.keyOperand_cases x with ⟨small, -⟩ | ⟨-, operand⟩
  · omega
  · rw [execSknpVx, operand]

end

/-- A skip goes to one of its two targets (R93). -/
theorem advance_skip (taken : Bool) (s : State) :
    advance (skipDistance taken) s = goto (if taken = true then s.pc.toNat + 4 else s.pc.toNat + 2) s := by
  cases taken <;> rfl

/-- The target of a skip on a difference is written with its branches exchanged. -/
theorem advance_skip_ne {α : Type} [DecidableEq α] (a b : α) (s : State) :
    advance (skipDistance (a != b)) s = goto (if a = b then s.pc.toNat + 2 else s.pc.toNat + 4) s := by
  rw [advance_skip]
  simp only [bne_iff_ne, ite_not]

/-- Every handler is its effect and its end. -/
theorem exec_eq (i : Instr) (s : State) : exec i s = endHandler i s (handlerEffect i s) := by
  cases i with
  | cls => rfl
  | ret =>
    show execRet s = _
    rcases s.pop_cases with ⟨-, popped⟩ | ⟨used, popped⟩
    · rw [execRet, handlerEffect, popped]; rfl
    · rw [execRet, handlerEffect, popped]
      simp [Except.map, endHandler, Instr.target, Nat.ne_of_gt used]
  | jpNnn nnn => exact (goto_addr12 nnn s).symm
  | callNnn nnn =>
    show execCallNnn nnn s = _
    rw [execCallNnn, handlerEffect]
    cases s.push s.pc with
    | error f => rfl
    | ok t => exact (goto_addr12 nnn t).symm
  | seVxKk x kk =>
    rw [exec_seVxKk, advance_skip]
    simp only [beq_iff_eq]
    rfl
  | sneVxKk x kk => exact advance_skip_ne (s.readV x) kk s
  | ldVxKk x kk => rfl
  | addVxKk x kk => rfl
  | ldVxVy x y => rfl
  | sneVxVy x y => exact advance_skip_ne (s.readV x) (s.readV y) s
  | ldINnn nnn => rfl
  | rndVxKk x kk => rfl
  | drwVxVyN x y n =>
    show execDrwVxVyN x y n s = _
    rw [execDrwVxVyN, handlerEffect]
    cases drawRows s.mem s.i (s.readV x).toNat (s.readV y).toNat (List.range n.toNat) { fb := s.fb, vf := 0x00#8 } <;> rfl
  | skpVx x =>
    rcases s.keyOperand_cases x with ⟨small, operand⟩ | ⟨large, operand⟩
    · rw [exec_skpVx small, handlerEffect, operand]
      exact advance_skip (s.keyDown (s.readV x).toNat) s
    · rw [exec_skpVx_large large, handlerEffect, operand]; rfl
  | sknpVx x =>
    rcases s.keyOperand_cases x with ⟨small, operand⟩ | ⟨large, operand⟩
    · rw [exec_sknpVx small, ← Bool.bne_true, handlerEffect, operand]
      exact advance_skip_ne (s.keyDown (s.readV x).toNat) true s
    · rw [exec_sknpVx_large large, handlerEffect, operand]; rfl
  | ldVxDt x => rfl
  | ldDtVx x => rfl
  | addIVx x =>
    show execAddIVx x s = _
    rw [execAddIVx, handlerEffect]
    split <;> rfl

/-- Everything a handler can do: latch a fault, complete at its target, or stop without a meaning above 0xFFFF (D16). -/
theorem exec_cases (i : Instr) (s : State) :
    (∃ f, handlerEffect i s = .error f ∧ exec i s = .next ((faultBase i s).latch f)) ∨
    (∃ t, handlerEffect i s = .ok t ∧ i.target s ≤ 0xFFFF ∧
      exec i s = .next (t.setPc (BitVec.ofNat 16 (i.target s)))) ∨
    (∃ t, handlerEffect i s = .ok t ∧ 0xFFFF < i.target s ∧ exec i s = .refused .pcOverflow) := by
  rw [exec_eq]
  cases handlerEffect i s with
  | error f => exact .inl ⟨f, rfl, rfl⟩
  | ok t =>
    rcases goto_eq (i.target s) t with ⟨reached, eq⟩ | ⟨above, eq⟩
    · exact .inr (.inl ⟨t, rfl, reached, eq⟩)
    · exact .inr (.inr ⟨t, rfl, above, eq⟩)

/-- The next states of a handler. -/
theorem exec_next_cases {i : Instr} {s u : State} (executed : exec i s = .next u) :
    (∃ f, handlerEffect i s = .error f ∧ u = (faultBase i s).latch f) ∨
    (∃ t, handlerEffect i s = .ok t ∧ i.target s ≤ 0xFFFF ∧ u = t.setPc (BitVec.ofNat 16 (i.target s))) := by
  rcases exec_cases i s with ⟨f, effect, eq⟩ | ⟨t, effect, reached, eq⟩ | ⟨t, -, -, eq⟩ <;> rw [eq] at executed
  · exact .inl ⟨f, effect, (Host.Outcome.next.inj executed).symm⟩
  · exact .inr ⟨t, effect, reached, (Host.Outcome.next.inj executed).symm⟩
  · cases executed

end Sys2Proof.Machine
end

section
/-! What a handler changes and what it leaves (spec/10_state.md sections 1 to 8, spec/60_exceptions.md section 2). -/

namespace Sys2Proof.Machine

/-! ### Reading a register after an update of something else -/

section
variable (s : State) (r : Nibble)

@[simp] theorem State.setPc_readV (a : Word) : (s.setPc a).readV r = s.readV r := rfl
@[simp] theorem State.setI_readV (a : Word) : (s.setI a).readV r = s.readV r := rfl
@[simp] theorem State.setDt_readV (b : Byte) : (s.setDt b).readV r = s.readV r := rfl
@[simp] theorem State.setFb_readV (f : Frame) : (s.setFb f).readV r = s.readV r := rfl
@[simp] theorem State.latch_readV (f : Fault) : (s.latch f).readV r = s.readV r := rfl
@[simp] theorem State.nextRandom_readV : s.nextRandom.2.readV r = s.readV r := rfl
@[simp] theorem State.spoilDraw_readV :
    s.spoilDraw.readV r = if 15#4 = r then Config.drwFaultVf s.drwFaultCount else s.readV r :=
  State.readV_setV s 15#4 _ r

theorem State.readV_setV_of_ne {x : Nibble} (b : Byte) (h : x ≠ r) : (s.setV x b).readV r = s.readV r := by
  rw [State.readV_setV, if_neg h]

end

/-! ### The frame of a handler -/

/-- What the handler of `i`, up to its target, may have changed from `s` to `t`: no register but its destination and its flag, `I`
and the random source only if it is one that uses them, a stack slot only to the `pc` of a call; nothing of the other fields
named here. -/
structure HandlerFrame (i : Instr) (s t : State) : Prop where
  pc : t.pc = s.pc
  st : t.st = s.st
  key : t.key = s.key
  mem : t.mem = s.mem
  faultInfo : t.faultInfo = s.faultInfo
  registers : ∀ r, i.destination ≠ some r → (i.writesFlag = true → r ≠ 15#4) → t.readV r = s.readV r
  index : i.writesIndex = false → t.i = s.i
  draws : t.rndCount = if i.drawsRandom then s.rndCount + 1 else s.rndCount
  stack : ∀ j : Fin 16, t.stack[j] = s.stack[j] ∨ t.stack[j] = s.pc

/-- An instruction that draws no byte may leave the state as it is. -/
theorem HandlerFrame.refl {i : Instr} (s : State) (h : i.drawsRandom = false) : HandlerFrame i s s where
  pc := rfl
  st := rfl
  key := rfl
  mem := rfl
  faultInfo := rfl
  registers _ _ _ := rfl
  index _ := rfl
  draws := by simp [h]
  stack _ := .inl rfl

theorem pop_frame {s t : State} {slot : Word} (popped : s.pop = .ok (slot, t)) : HandlerFrame .ret s t := by
  rcases s.pop_cases with ⟨-, eq⟩ | ⟨_, eq⟩ <;> rw [eq] at popped <;> cases popped
  exact { HandlerFrame.refl s rfl with }

theorem push_frame {s t : State} {nnn : Addr12} (pushed : s.push s.pc = .ok t) : HandlerFrame (.callNnn nnn) s t := by
  rcases s.push_cases s.pc with ⟨-, eq⟩ | ⟨room, eq⟩ <;> rw [eq] at pushed <;> cases pushed
  refine { HandlerFrame.refl s rfl with stack := fun j => ?_ }
  show (s.stack.set s.sp.val s.pc room)[j.val] = s.stack[j.val] ∨ (s.stack.set s.sp.val s.pc room)[j.val] = s.pc
  rw [Vector.getElem_set]
  split
  · exact .inr rfl
  · exact .inl rfl

/-- The effect of a handler stays within its frame. -/
theorem handlerEffect_frame {i : Instr} {s t : State} (h : handlerEffect i s = .ok t) : HandlerFrame i s t := by
  cases i with
  | cls | jpNnn _ | seVxKk _ _ | sneVxKk _ _ | sneVxVy _ _ | ldDtVx _ => cases h; exact { HandlerFrame.refl s rfl with }
  | ret =>
    rw [handlerEffect] at h
    match popped : s.pop with
    | .ok (slot, u) => rw [popped] at h; cases h; exact pop_frame popped
    | .error f => rw [popped] at h; cases h
  | callNnn nnn => exact push_frame h
  | ldVxKk x kk | ldVxVy x y | ldVxDt x =>
    cases h
    exact { HandlerFrame.refl s rfl with
      registers := fun r other _ => s.readV_setV_of_ne r _ fun e => other (congrArg some e) }
  | addVxKk x kk =>
    cases h
    exact { HandlerFrame.refl s rfl with
      registers := fun r other flag =>
        (State.readV_setV_of_ne _ r _ (flag rfl).symm).trans (s.readV_setV_of_ne r _ fun e => other (congrArg some e)) }
  | rndVxKk x kk =>
    cases h
    exact { HandlerFrame.refl (i := .cls) s rfl with
      registers := fun r other _ => s.nextRandom.2.readV_setV_of_ne r _ fun e => other (congrArg some e)
      index := fun _ => rfl
      draws := rfl }
  | ldINnn nnn => cases h; exact { HandlerFrame.refl s rfl with index := fun h => by cases h }
  | drwVxVyN x y n =>
    rw [handlerEffect] at h
    match drawn : drawRows s.mem s.i (s.readV x).toNat (s.readV y).toNat (List.range n.toNat) { fb := s.fb, vf := 0x00#8 } with
    | .ok c =>
      rw [drawn] at h
      cases h
      exact { HandlerFrame.refl s rfl with
        registers := fun r _ flag => State.readV_setV_of_ne _ r _ (flag rfl).symm }
    | .error f => rw [drawn] at h; cases h
  | skpVx x | sknpVx x =>
    rw [handlerEffect] at h
    match operand : s.keyOperand x with
    | .ok k => rw [operand] at h; cases h; exact HandlerFrame.refl s rfl
    | .error f => rw [operand] at h; cases h
  | addIVx x =>
    rw [handlerEffect] at h
    split at h <;> cases h
    exact { HandlerFrame.refl s rfl with index := fun h => by cases h }

end Sys2Proof.Machine
end

section
/-! What every handler does and does not do, from its frame (spec/40_step_cycle.md sections 1 and 6, spec/60_exceptions.md
section 2). -/

namespace Sys2Proof.Machine

/-! ### Faults of a handler -/

/-- Only the six instructions of R191 fault. -/
theorem canFault_of_error {i : Instr} {s : State} {f : Fault} (h : handlerEffect i s = .error f) : i.canFault = true := by
  cases i with
  | ret | callNnn _ | drwVxVyN _ _ _ | skpVx _ | sknpVx _ | addIVx _ => rfl
  | cls | jpNnn _ | seVxKk _ _ | sneVxKk _ _ | ldVxKk _ _ | addVxKk _ _ | ldVxVy _ _ | sneVxVy _ _ => cases h
  | ldINnn _ | rndVxKk _ _ | ldVxDt _ | ldDtVx _ => cases h

/-- None of the six draws a random byte. -/
theorem not_drawsRandom_of_canFault {i : Instr} (h : i.canFault = true) : i.drawsRandom = false := by
  cases i with
  | rndVxKk _ _ => cases h
  | cls | ret | jpNnn _ | callNnn _ | seVxKk _ _ | sneVxKk _ _ | ldVxKk _ _ | addVxKk _ _ | ldVxVy _ _ => rfl
  | sneVxVy _ _ | ldINnn _ | drwVxVyN _ _ _ | skpVx _ | sknpVx _ | ldVxDt _ | ldDtVx _ | addIVx _ => rfl

/-- `DRW` is the one instruction that leaves something else than the latch behind (R191, D12). -/
theorem faultBase_of_not_draw {i : Instr} (s : State) (h : i.isDraw = false) : faultBase i s = s := by
  simp [faultBase, h]

/-- No fault touches the delay timer. -/
theorem faultBase_dt (i : Instr) (s : State) : (faultBase i s).dt = s.dt := by
  rw [faultBase]
  split <;> rfl

/-- What a fault leaves besides the latch is within the frame of the handler. -/
theorem faultBase_frame {i : Instr} (s : State) (h : i.drawsRandom = false) : HandlerFrame i s (faultBase i s) := by
  cases i with
  | drwVxVyN x y n =>
    exact { HandlerFrame.refl s rfl with registers := fun r _ flag => State.readV_setV_of_ne s r _ (flag rfl).symm }
  | cls | ret | jpNnn _ | callNnn _ | seVxKk _ _ | sneVxKk _ _ | ldVxKk _ _ | addVxKk _ _ | ldVxVy _ _ =>
    exact HandlerFrame.refl s h
  | sneVxVy _ _ | ldINnn _ | rndVxKk _ _ | skpVx _ | sknpVx _ | ldVxDt _ | ldDtVx _ | addIVx _ =>
    exact HandlerFrame.refl s h

/-! ### The next states of a handler -/

/-- Every next state is one within the frame, with the latch set or with the target in `pc`. -/
theorem exec_frame {i : Instr} {s u : State} (executed : exec i s = .next u) :
    ∃ t, HandlerFrame i s t ∧ ((∃ f, u = t.latch f) ∨ u = t.setPc (BitVec.ofNat 16 (i.target s))) := by
  rcases exec_next_cases executed with ⟨f, effect, rfl⟩ | ⟨t, effect, -, rfl⟩
  · exact ⟨_, faultBase_frame s (not_drawsRandom_of_canFault (canFault_of_error effect)), .inl ⟨f, rfl⟩⟩
  · exact ⟨t, handlerEffect_frame effect, .inr rfl⟩

section
variable {i : Instr} {s u : State} (executed : exec i s = .next u)
include executed

theorem exec_st : u.st = s.st := by
  obtain ⟨t, frame, ⟨f, rfl⟩ | rfl⟩ := exec_frame executed <;> exact frame.st

theorem exec_key : u.key = s.key := by
  obtain ⟨t, frame, ⟨f, rfl⟩ | rfl⟩ := exec_frame executed <;> exact frame.key

theorem exec_mem : u.mem = s.mem := by
  obtain ⟨t, frame, ⟨f, rfl⟩ | rfl⟩ := exec_frame executed <;> exact frame.mem

theorem exec_rndCount : u.rndCount = if i.drawsRandom then s.rndCount + 1 else s.rndCount := by
  obtain ⟨t, frame, ⟨f, rfl⟩ | rfl⟩ := exec_frame executed <;> exact frame.draws

theorem exec_index (h : i.writesIndex = false) : u.i = s.i := by
  obtain ⟨t, frame, ⟨f, rfl⟩ | rfl⟩ := exec_frame executed <;> exact frame.index h

theorem exec_register {r : Nibble} (other : i.destination ≠ some r) (flag : i.writesFlag = true → r ≠ 15#4) :
    u.readV r = s.readV r := by
  obtain ⟨t, frame, ⟨f, rfl⟩ | rfl⟩ := exec_frame executed <;> exact frame.registers r other flag

theorem exec_stack (j : Fin 16) : u.stack[j] = s.stack[j] ∨ u.stack[j] = s.pc := by
  obtain ⟨t, frame, ⟨f, rfl⟩ | rfl⟩ := exec_frame executed <;> exact frame.stack j

/-- A handler that leaves a running engine faulted has raised that fault. -/
theorem exec_faulted {f : Fault} (running : s.Running) (faulted : u.faultInfo = some f) :
    handlerEffect i s = .error f ∧ u = (faultBase i s).latch f := by
  rcases exec_next_cases executed with ⟨g, effect, rfl⟩ | ⟨t, effect, -, rfl⟩
  · obtain rfl : g = f := Option.some.inj faulted
    exact ⟨effect, rfl⟩
  · cases faulted.symm.trans ((handlerEffect_frame effect).faultInfo.trans running)

/-- A handler that leaves the engine running has reached its target. -/
theorem exec_completed (completed : u.Running) :
    ∃ t, handlerEffect i s = .ok t ∧ i.target s ≤ 0xFFFF ∧ u = t.setPc (BitVec.ofNat 16 (i.target s)) := by
  rcases exec_next_cases executed with ⟨g, -, rfl⟩ | reached
  · cases completed
  · exact reached

end

/-- Settles O41: both clauses are fields of the handler's frame (`exec_frame`). -/
theorem registerFrame : Obligations.RegisterFrame :=
  ⟨fun _ _ _ _ executed other flag => exec_register executed other flag, fun _ _ _ other executed => exec_index executed other⟩

/-- Settles O47: the count of draws is a field of the handler's frame (`exec_frame`). -/
theorem randomByteDrawnByRndOnly : Obligations.RandomByteDrawnByRndOnly :=
  fun _ _ _ executed => exec_rndCount executed

/-- Settles O48: without a draw the latch is set in the old state. -/
theorem faultsArePreciseExceptInDraw : Obligations.FaultsArePreciseExceptInDraw := by
  intro i s t f running notDraw executed faulted
  obtain ⟨-, eq⟩ := exec_faulted executed running faulted
  rw [eq, faultBase_of_not_draw s notDraw, State.latch]

/-- Settles O40: the three clauses are the three cases of `exec_cases`, of which the first leaves no running state. -/
theorem everyHandlerSetsItsTarget : Obligations.EveryHandlerSetsItsTarget := by
  intro i s _
  refine ⟨?_, ?_, ?_⟩
  · intro t executed completed
    obtain ⟨u, -, reached, rfl⟩ := exec_completed executed completed
    exact (BitVec.toNat_ofNat _ _).trans (Nat.mod_eq_of_lt (Nat.lt_succ_of_le reached))
  · intro r refused
    rcases exec_cases i s with ⟨f, -, eq⟩ | ⟨t, -, -, eq⟩ | ⟨t, -, above, eq⟩ <;> rw [eq] at refused <;> cases refused
    exact ⟨rfl, above⟩
  · intro above
    rcases exec_cases i s with ⟨f, -, eq⟩ | ⟨t, -, reached, -⟩ | ⟨t, -, -, eq⟩
    · rw [eq]
      exact Option.some_ne_none f
    · exact absurd reached (Nat.not_le_of_lt above)
    · rw [eq]
      exact id

/-! ### The outcomes of a step -/

theorem exec_ne_fault (i : Instr) (s : State) (f : Fault) : exec i s ≠ .fault f := by
  rcases exec_cases i s with ⟨g, -, eq⟩ | ⟨t, -, -, eq⟩ | ⟨t, -, -, eq⟩ <;> rw [eq] <;> exact nofun

/-- A step answers a next state, or it is refused because its handler is, by a target above 0xFFFF (R99, D16). -/
theorem step_next_or_refused (s : State) :
    (∃ t, step s = .next t) ∨
    (∃ w i, fetch s = .ok w ∧ decode w = .ok i ∧ 0xFFFF < i.target s ∧ step s = .refused .pcOverflow) := by
  unfold step
  cases latch : s.faultInfo with
  | some f => rw [cycle_of_faulted latch]; exact .inl ⟨_, rfl⟩
  | none =>
    cases fetched : fetch s with
    | error f => rw [cycle_of_fetch_error latch fetched]; exact .inl ⟨_, rfl⟩
    | ok w =>
      cases decoded : decode w with
      | error e => rw [cycle_of_decode_error latch fetched decoded]; exact .inl ⟨_, rfl⟩
      | ok i =>
        rw [cycle_of_decode latch fetched decoded]
        cases executed : exec i s with
        | next u =>
          rcases finishStep_next u with ⟨f, -, eq⟩ | ⟨-, eq⟩ <;> rw [eq] <;> exact .inl ⟨_, rfl⟩
        | fault f => exact absurd executed (exec_ne_fault i s f)
        | refused r =>
          rcases exec_cases i s with ⟨g, -, eq⟩ | ⟨t, -, -, eq⟩ | ⟨t, -, above, eq⟩ <;> rw [eq] at executed <;> cases executed
          exact .inr ⟨w, i, rfl, decoded, above, rfl⟩

/-- Settles O49: a fault needs one of the six instructions of R191, and every fault of a handler or a step is a next state. -/
theorem twelveInstructionsCannotFault : Obligations.TwelveInstructionsCannotFault := by
  refine ⟨?_, exec_ne_fault, ?_⟩
  · intro i s t running cannot executed
    match latch : t.faultInfo with
    | none => exact latch
    | some f =>
      obtain ⟨effect, -⟩ := exec_faulted executed running latch
      rw [canFault_of_error effect] at cannot
      cases cannot
  · intro s f
    rcases step_next_or_refused s with ⟨t, eq⟩ | ⟨w, i, -, -, -, eq⟩ <;> rw [eq] <;> exact nofun

end Sys2Proof.Machine
end

section
/-! An instruction neither reads nor writes the parts of the state that it does not use (spec/10_state.md sections 5 to 8,
spec/20_memory.md section 5). -/

namespace Sys2Proof.Machine

/-- `s` with every part that the instruction `i` does not use taken from `r`: the stack and `sp`, the framebuffer, the timers, the
keys, the memory. -/
def overlay (i : Instr) (r s : State) : State :=
  { s with
    stack := bif i.usesStack then s.stack else r.stack
    sp := bif i.usesStack then s.sp else r.sp
    fb := bif i.usesFrame then s.fb else r.fb
    dt := bif i.usesDelay then s.dt else r.dt
    st := r.st
    key := bif i.usesKeys then s.key else r.key
    mem := bif i.isDraw then s.mem else r.mem }

theorem overlay_self (i : Instr) (s : State) : overlay i s s = s := by
  simp only [overlay, Bool.cond_self]

/-- A computation that may fault, run in the overlaid state, when it does not read what is overlaid. -/
theorem map_overlay {α : Type} (i : Instr) (r : State) (x : Except Fault α) (g : α → State) :
    x.map (fun a => overlay i r (g a)) = (x.map g).map (overlay i r) := by
  cases x <;> rfl

theorem target_overlay (i : Instr) (r s : State) : i.target (overlay i r s) = i.target s := by
  cases i <;> rfl

theorem faultBase_overlay (i : Instr) (r s : State) : faultBase i (overlay i r s) = overlay i r (faultBase i s) := by
  cases i <;> rfl

/-- The effect of a handler in the overlaid state is its effect, overlaid. -/
theorem handlerEffect_overlay (i : Instr) (r s : State) :
    handlerEffect i (overlay i r s) = (handlerEffect i s).map (overlay i r) := by
  cases i with
  | cls | jpNnn _ | seVxKk _ _ | sneVxKk _ _ | ldVxKk _ _ | addVxKk _ _ | ldVxVy _ _ | sneVxVy _ _ => rfl
  | ldINnn _ | rndVxKk _ _ | ldVxDt _ | ldDtVx _ => rfl
  | ret =>
    by_cases empty : s.sp.val = 0
    · have empty' : (overlay .ret r s).sp.val = 0 := empty
      rw [handlerEffect, handlerEffect, State.pop, State.pop, dif_pos empty, dif_pos empty']; rfl
    · have empty' : (overlay .ret r s).sp.val ≠ 0 := empty
      rw [handlerEffect, handlerEffect, State.pop, State.pop, dif_neg empty, dif_neg empty']; rfl
  | callNnn nnn =>
    by_cases full : s.sp.val = 16
    · have full' : (overlay (.callNnn nnn) r s).sp.val = 16 := full
      rw [handlerEffect, handlerEffect, State.push, State.push, dif_pos full, dif_pos full']; rfl
    · have full' : (overlay (.callNnn nnn) r s).sp.val ≠ 16 := full
      rw [handlerEffect, handlerEffect, State.push, State.push, dif_neg full, dif_neg full']; rfl
  | drwVxVyN x y n =>
    exact map_overlay (.drwVxVyN x y n) r
      (drawRows s.mem s.i (s.readV x).toNat (s.readV y).toNat (List.range n.toNat) { fb := s.fb, vf := 0x00#8 })
      fun c => (s.setFb c.fb).setV 15#4 c.vf
  | skpVx x => exact map_overlay (.skpVx x) r (s.keyOperand x) fun _ => s
  | sknpVx x => exact map_overlay (.sknpVx x) r (s.keyOperand x) fun _ => s
  | addIVx x =>
    show (if s.indexSum x > 0xFFFF then _ else _) = Except.map _ (if s.indexSum x > 0xFFFF then _ else _)
    split <;> rfl

/-- Running an instruction in the overlaid state gives its outcome, overlaid: it does not read the parts it does not use. -/
theorem exec_overlay (i : Instr) (r s : State) : exec i (overlay i r s) = mapNext (overlay i r) (exec i s) := by
  rw [exec_eq, exec_eq, handlerEffect_overlay]
  cases handlerEffect i s with
  | error f => exact congrArg (fun t : State => raise f t) (faultBase_overlay i r s)
  | ok t =>
    show goto (i.target (overlay i r s)) (overlay i r t) = mapNext _ (goto (i.target s) t)
    rw [target_overlay, goto, goto]
    split <;> rfl

/-- Nor does it write them: its next state has them from the state before. -/
theorem overlay_of_exec {i : Instr} {s t : State} (executed : exec i s = .next t) : overlay i s t = t := by
  have eq := exec_overlay i s s
  rw [overlay_self, executed] at eq
  exact (Host.Outcome.next.inj eq).symm

/-- So a change `g` of nothing but unused parts is carried through an instruction. -/
theorem exec_mapNext {i : Instr} {g : State → State} (unused : ∀ r t, overlay i (g r) t = g (overlay i r t)) (s : State) :
    exec i (g s) = mapNext g (exec i s) := by
  have start : overlay i (g s) s = g s := by rw [unused, overlay_self]
  rw [← start, exec_overlay]
  cases executed : exec i s with
  | next t => exact congrArg Host.Outcome.next ((unused s t).trans (congrArg g (overlay_of_exec executed)))
  | fault f => rfl
  | refused f => rfl

/-- Settles O42: the stack and `sp` are among the parts `overlay` replaces for every instruction but these two. -/
theorem onlyCallAndRetTouchTheStack : Obligations.OnlyCallAndRetTouchTheStack :=
  fun _ s k p h =>
    exec_mapNext (g := fun t => { t with stack := k, sp := p }) (fun _ _ => by simp only [overlay, h, cond_false]) s

/-- Settles O43: the framebuffer is among the parts `overlay` replaces for every instruction but these two. -/
theorem onlyClsAndDrwTouchTheFramebuffer : Obligations.OnlyClsAndDrwTouchTheFramebuffer :=
  fun _ s f h => exec_mapNext (g := fun t => { t with fb := f }) (fun _ _ => by simp only [overlay, h, cond_false]) s

/-- Settles O44: the keys are among the parts `overlay` replaces for every instruction but these two, and no frame has a key
write. -/
theorem onlyKeySkipsReadTheKeys : Obligations.OnlyKeySkipsReadTheKeys :=
  ⟨fun _ s k h => exec_mapNext (g := fun t => { t with key := k }) (fun _ _ => by simp only [overlay, h, cond_false]) s,
    fun _ _ _ executed => exec_key executed⟩

/-- Settles O45: `overlay` replaces the sound timer for every instruction, and the delay timer for all but these two. -/
theorem handlersTouchTimersOnlyThroughDelayLoads : Obligations.HandlersTouchTimersOnlyThroughDelayLoads :=
  ⟨fun _ s b => exec_mapNext (g := fun t => { t with st := b }) (fun _ _ => rfl) s,
    fun _ s b h => exec_mapNext (g := fun t => { t with dt := b }) (fun _ _ => by simp only [overlay, h, cond_false]) s⟩

/-- A step changes neither memory nor the keys: its handler does not, and the tick writes the timers alone. -/
theorem step_mem_key {s t : State} (stepped : step s = .next t) : t.mem = s.mem ∧ t.key = s.key := by
  rcases step_next_cases stepped with ⟨f, -, rfl⟩ | ⟨-, f, -, rfl⟩ | ⟨-, w, e, -, -, rfl⟩ |
    ⟨-, w, i, u, -, -, executed, -, rfl⟩ | ⟨-, w, i, f, -, -, executed, -⟩
  · exact ⟨rfl, rfl⟩
  · exact ⟨rfl, rfl⟩
  · exact ⟨rfl, rfl⟩
  · exact ⟨exec_mem (u := u) executed, exec_key (u := u) executed⟩
  · exact ⟨exec_mem executed, exec_key executed⟩

/-- Settles O46: no frame has a memory write, and memory is among the parts `overlay` replaces for every instruction but `DRW`.
-/
theorem noInstructionWritesMemory : Obligations.NoInstructionWritesMemory :=
  ⟨fun _ _ _ executed => exec_mem executed,
    fun _ s m h => exec_mapNext (g := fun t => { t with mem := m }) (fun _ _ => by simp only [overlay, h, cond_false]) s,
    fun _ _ stepped => step_mem_key stepped⟩

end Sys2Proof.Machine
end

section
/-! The step cycle and the direct entry (spec/40_step_cycle.md sections 1 to 4, spec/60_exceptions.md section 1). -/

namespace Sys2Proof.Machine

/-! ### The fetch -/

/-- Up to 0x0FFE the fetch answers the two bytes at `pc`, high byte first (R91). -/
theorem fetch_ok {s : State} (inMemory : s.pc.toNat ≤ 0x0FFE) :
    fetch s = .ok (wordOfBytes (Memory.byteAt s.mem s.pc.toNat) (Memory.byteAt s.mem (s.pc.toNat + 1))) :=
  Memory.readWord_ok (by omega)

/-- A fetch that answers a word was at most at 0x0FFE. -/
theorem pc_le_of_fetch {s : State} {w : Word} (fetched : fetch s = .ok w) : s.pc.toNat ≤ 0x0FFE := by
  obtain ⟨inMemory, -⟩ := Memory.readWord_eq_ok fetched
  omega

/-- Above 0x0FFE the fetch faults with the address of the byte out of range (R52, D14). -/
theorem fetch_error {s : State} (beyond : 0x0FFE < s.pc.toNat) :
    fetch s = .error (.outOfBoundsMemoryAccess (if s.pc.toNat = 0x0FFF then 0x1000 else s.pc.toNat)) := by
  unfold fetch
  split
  · next last => rw [last, Memory.readWord_last]
  · exact Memory.readWord_beyond (by omega)

/-! ### The outcome and the outputs of a step -/

/-- Settles O7: up to 0x0FFE the fetch answers the two bytes (`fetch_ok`), and `finishStep` is the case split of the statement.
-/
theorem stepRunsDecodedInstruction : Obligations.StepRunsDecodedInstruction := by
  intro s i running inMemory decoded
  rw [step, cycle_of_decode running (fetch_ok inMemory) decoded]
  cases exec i s with
  | next t => cases latch : t.faultInfo <;> simp only [finishStep, latch]
  | fault f => rfl
  | refused r => rfl

/-- A handler that faults ends the step: its state is the result, with no tick, no beep, and its fault reported (R97). -/
theorem cycle_of_handler_fault {s t : State} {w : Word} {i : Instr} {f : Fault} (running : s.Running) (fetched : fetch s = .ok w)
    (decoded : decode w = .ok i) (executed : exec i s = .next t) (faulted : t.faultInfo = some f) :
    cycle s = { outcome := .next t, beep := false, report := some f } := by
  rw [cycle_of_decode running fetched decoded, executed]
  simp only [finishStep, faulted]

/-- Settles O9: the sound timer before the tick is the one before the step, since no handler writes it (`exec_st`). -/
theorem beepExactlyWhenSoundTimerIsOne : Obligations.BeepExactlyWhenSoundTimerIsOne := by
  intro s
  unfold step
  match latch : s.faultInfo with
  | some f => simp [cycle_of_faulted latch, latch]
  | none =>
    match fetched : fetch s with
    | .error f => simp [cycle_of_fetch_error latch fetched]
    | .ok w =>
      match decoded : decode w with
      | .error e => simp [cycle_of_decode_error latch fetched decoded]
      | .ok i =>
        match executed : exec i s with
        | .next t =>
          match latch' : t.faultInfo with
          | some f => simp [cycle_of_handler_fault latch fetched decoded executed latch', latch']
          | none =>
            rw [cycle_of_completed latch fetched decoded executed latch', ← exec_st executed]
            exact (timerTick_beep t).trans ⟨fun one => ⟨latch, latch', one⟩, fun h => h.2.2⟩
        | .fault f => simp [cycle_of_decode latch fetched decoded, executed, finishStep]
        | .refused r => simp [cycle_of_decode latch fetched decoded, executed, finishStep]

/-- Settles O10: the fetch faults (`fetch_error`), and a faulting fetch sets the latch alone. -/
theorem fetchPastTheEndFaults : Obligations.FetchPastTheEndFaults := by
  intro s running beyond
  rw [step, cycle_of_fetch_error running (fetch_error beyond), State.latch]
  exact ⟨rfl, rfl⟩

/-- Settles O11: a word no row accepts is rejected with its value (`decode_of_not_wellFormed`), and the rejection sets the
latch alone. -/
theorem illegalWordFaults : Obligations.IllegalWordFaults := by
  intro s w running fetched illegal
  rw [step, cycle_of_decode_error running fetched (decode_of_not_wellFormed illegal), faultOfDecode, State.latch]
  exact ⟨rfl, rfl⟩

/-- The direct entry of a faulted engine changes nothing and reports its fault (R29). -/
theorem decodeAndExecute_of_faulted {s : State} {f : Fault} (w : Word) (faulted : s.faultInfo = some f) :
    decodeAndExecute w s = { outcome := .next s, beep := false, report := some f } := by
  simp only [decodeAndExecute, faulted]

/-- The direct entry of a running engine is the handler's outcome with its report (R96). -/
theorem decodeAndExecute_of_running {s : State} (w : Word) (running : s.Running) :
    decodeAndExecute w s = { outcome := runWord w s, beep := false, report := reportOf (runWord w s) } := by
  simp only [decodeAndExecute, running]

/-- Settles O12: both entries test the latch before anything else. -/
theorem faultedEngineIsFrozen : Obligations.FaultedEngineIsFrozen := by
  intro s f w faulted
  rw [step, cycle_of_faulted faulted, decodeAndExecute_of_faulted w faulted]
  exact ⟨rfl, rfl, rfl, rfl, rfl⟩

/-- Settles O13: the handler's state is `faultBase` with the latch set, which has the old `pc` and timers. -/
theorem faultSkipsTickAndKeepsPc : Obligations.FaultSkipsTickAndKeepsPc := by
  intro s w i t f running fetched decoded executed faulted
  obtain ⟨effect, eq⟩ := exec_faulted executed running faulted
  have base := faultBase_frame s (not_drawsRandom_of_canFault (canFault_of_error effect))
  rw [step, cycle_of_handler_fault running fetched decoded executed faulted]
  refine ⟨rfl, ?_, ?_, exec_st executed, rfl, rfl⟩
  · rw [eq, State.latch_pc, base.pc]
  · rw [eq, State.latch_dt, faultBase_dt]

/-- Settles O14: both entries run `runWord`, which is the handler of a legal word and the latch for any other. -/
theorem directEntryRunsHandlerWithoutTick : Obligations.DirectEntryRunsHandlerWithoutTick := by
  intro s w running
  rw [decodeAndExecute_of_running w running]
  refine ⟨fun i decoded => ⟨?_, rfl⟩, fun illegal => ?_, fun fetched => ?_⟩
  · rw [runWord, decoded]
  · rw [runWord, decode_of_not_wellFormed illegal]
    exact ⟨rfl, rfl, rfl⟩
  · simp only [cycle, running, fetched]

end Sys2Proof.Machine
end

section
/-! The invariants of every session (spec/40_step_cycle.md section 6, spec/10_state.md section 7, spec/20_memory.md section 1). -/

namespace Sys2Proof.Machine

/-! ### The bound on `pc` and the stack -/

/-- From a bounded state that has fetched, no handler goes beyond 0x1002 (R99). -/
theorem target_le {s : State} (bounded : s.Bounded) (inMemory : s.pc.toNat ≤ 0x0FFE) (i : Instr) : i.target s ≤ 0x1002 := by
  cases i with
  | ret =>
    rw [Instr.target]
    split
    · omega
    · have slot := bounded.2 ⟨s.sp.val - 1, by omega⟩
      exact Nat.add_le_add_right (Nat.le_trans slot (by decide : 0x0FFE ≤ 0x1000)) 2
  | jpNnn nnn | callNnn nnn => exact Nat.le_of_lt (Nat.lt_trans nnn.isLt (by decide))
  | seVxKk _ _ | sneVxKk _ _ | sneVxVy _ _ | skpVx _ | sknpVx _ => rw [Instr.target]; split <;> omega
  | cls | ldVxKk _ _ | addVxKk _ _ | ldVxVy _ _ | ldINnn _ | rndVxKk _ _ => rw [Instr.target]; omega
  | drwVxVyN _ _ _ | ldVxDt _ | ldDtVx _ | addIVx _ => rw [Instr.target]; omega

/-- A handler leaves `pc` where it was or at a target, and in the stack only old slots and the `pc` of a call. -/
theorem exec_bounded {i : Instr} {s u : State} (bounded : s.Bounded) (inMemory : s.pc.toNat ≤ 0x0FFE)
    (executed : exec i s = .next u) : u.Bounded := by
  constructor
  · obtain ⟨t, frame, ⟨f, rfl⟩ | rfl⟩ := exec_frame executed
    · rw [State.latch_pc, frame.pc]
      exact bounded.1
    · exact Nat.le_trans (Nat.mod_le _ _) (target_le bounded inMemory i)
  · intro j
    rcases exec_stack executed j with old | pushed
    · exact old ▸ bounded.2 j
    · exact pushed ▸ inMemory

/-- Settles O50: of the five ways a step can go only a handler moves `pc` or the stack, and `exec_bounded` bounds what it
leaves. -/
theorem stepKeepsPcAndStackBounded : Obligations.StepKeepsPcAndStackBounded := by
  intro s t bounded stepped
  rcases step_next_cases stepped with ⟨f, -, rfl⟩ | ⟨-, f, -, rfl⟩ | ⟨-, w, e, -, -, rfl⟩ |
    ⟨-, w, i, u, fetched, -, executed, -, rfl⟩ | ⟨-, w, i, f, fetched, -, executed, -⟩
  · exact bounded
  · exact bounded
  · exact bounded
  · exact exec_bounded (u := u) bounded (pc_le_of_fetch fetched) executed
  · exact exec_bounded bounded (pc_le_of_fetch fetched) executed

/-- Settles O51: a refusal needs a target above 0xFFFF, and `target_le` bounds it by 0x1002. -/
theorem boundedStepAlwaysAnswers : Obligations.BoundedStepAlwaysAnswers := by
  intro s bounded
  rcases step_next_or_refused s with answers | ⟨w, i, fetched, -, above, -⟩
  · exact answers
  · have bound := target_le bounded (pc_le_of_fetch fetched) i
    omega

/-! ### The sound timer -/

/-- The tick keeps a timer of 0 at 0. -/
theorem timerTick_silent {s : State} (silent : s.Silent) : (timerTick s).1.Silent := by
  show tickDown s.st = 0x00#8
  rw [silent]
  rfl

theorem step_silent {s t : State} (silent : s.Silent) (stepped : step s = .next t) : t.Silent := by
  rcases step_next_cases stepped with ⟨f, -, rfl⟩ | ⟨-, f, -, rfl⟩ | ⟨-, w, e, -, -, rfl⟩ |
    ⟨-, w, i, u, -, -, executed, -, rfl⟩ | ⟨-, w, i, f, -, -, executed, -⟩
  · exact silent
  · exact silent
  · exact silent
  · exact timerTick_silent ((exec_st executed).trans silent)
  · exact (exec_st executed).trans silent

/-! ### Every operation of the interface -/

/-- A load that answers a state has written memory and nothing else. -/
theorem loadProgram_next {bytes : List Byte} {s t : State} (loaded : loadProgram bytes s = .next t) :
    t = s.setMem (Memory.writeBytes s.mem Config.progBase bytes) := by
  unfold loadProgram at loaded
  split at loaded <;> cases loaded
  rfl

/-- What the direct entry answers is the old state, the old state latched, or a handler's. -/
theorem decodeAndExecute_next_cases {w : Word} {s t : State} (h : (decodeAndExecute w s).outcome = .next t) :
    t = s ∨ (∃ f, t = s.latch f) ∨ ∃ i, exec i s = .next t := by
  match latch : s.faultInfo with
  | some f =>
    rw [decodeAndExecute_of_faulted w latch] at h
    exact .inl (Host.Outcome.next.inj h).symm
  | none =>
    rw [decodeAndExecute_of_running w latch, runWord] at h
    cases decoded : decode w <;> rw [decoded] at h
    · exact .inr (.inl ⟨_, (Host.Outcome.next.inj h).symm⟩)
    · exact .inr (.inr ⟨_, h⟩)

theorem perform_silent {o : Operation} {s t : State} (silent : s.Silent) (performed : perform o s = .next t) : t.Silent := by
  cases o with
  | step => exact step_silent silent performed
  | reset => cases performed; rfl
  | decodeAndExecute w =>
    rcases decodeAndExecute_next_cases performed with rfl | ⟨f, rfl⟩ | ⟨i, executed⟩
    · exact silent
    · exact silent
    · exact (exec_st executed).trans silent
  | loadProgram bytes => rw [loadProgram_next performed]; exact silent
  | writeKey k pressed => cases performed; exact silent

theorem perform_canonical {o : Operation} {s t : State} (canonical : s.Canonical) (performed : perform o s = .next t) :
    t.Canonical := by
  cases o with
  | step => rw [State.Canonical, (step_mem_key performed).1]; exact canonical
  | reset => cases performed; exact canonical
  | decodeAndExecute w =>
    rcases decodeAndExecute_next_cases performed with rfl | ⟨f, rfl⟩ | ⟨i, executed⟩
    · exact canonical
    · exact canonical
    · rw [State.Canonical, exec_mem executed]; exact canonical
  | loadProgram bytes => rw [loadProgram_next performed]; exact Memory.wf_writeBytes _ _ canonical
  | writeKey k pressed => cases performed; exact canonical

/-- Settles O53: a beep would need a sound timer of 1 (`beepExactlyWhenSoundTimerIsOne`). -/
theorem soundTimerStaysSilent : Obligations.SoundTimerStaysSilent := by
  refine ⟨fun o s t silent performed => perform_silent silent performed, fun s silent => Bool.eq_false_iff.mpr fun beep => ?_⟩
  obtain ⟨-, -, one⟩ := (beepExactlyWhenSoundTimerIsOne s).mp beep
  exact absurd (silent.symm.trans one) (by decide)

/-- Settles O54: only a load writes memory, and its copy loop keeps the form (`Memory.wf_writeBytes`). -/
theorem everyOperationKeepsMemoryCanonical : Obligations.EveryOperationKeepsMemoryCanonical :=
  fun _ _ _ canonical performed => perform_canonical canonical performed

/-- Settles O52: the reset values are within the bounds. -/
theorem resetMeetsTheInvariants : Obligations.ResetMeetsTheInvariants :=
  ⟨rfl, by decide, rfl, State.reset_mem_wf⟩

theorem perform_bounded {o : Operation} {s t : State} (ordinary : o.ordinary = true) (bounded : s.Bounded)
    (performed : perform o s = .next t) : t.Bounded := by
  obtain ⟨-, resetBounded, -, -⟩ := resetMeetsTheInvariants
  cases o with
  | step => exact stepKeepsPcAndStackBounded s t bounded performed
  | reset => cases performed; exact resetBounded
  | decodeAndExecute w => cases ordinary
  | loadProgram bytes => rw [loadProgram_next performed]; exact bounded
  | writeKey k pressed => cases performed; exact bounded

/-- Only a step could be refused, and from a bounded state it answers. -/
theorem perform_ne_refused {o : Operation} {s : State} (ordinary : o.ordinary = true) (bounded : s.Bounded) (r : Refusal) :
    perform o s ≠ .refused r := by
  cases o with
  | step =>
    obtain ⟨t, stepped⟩ := boundedStepAlwaysAnswers s bounded
    show step s ≠ _
    rw [stepped]
    exact nofun
  | reset => exact nofun
  | decodeAndExecute w => cases ordinary
  | loadProgram bytes =>
    show loadProgram bytes s ≠ _
    unfold loadProgram
    split <;> exact nofun
  | writeKey k pressed => exact nofun

/-- A session of ordinary operations runs to its end and keeps the invariants: each operation does. -/
theorem performAll_invariant {os : List Operation} {s : State} (ordinary : ∀ o ∈ os, o.ordinary = true) (bounded : s.Bounded)
    (silent : s.Silent) (canonical : s.Canonical) :
    ∃ t, performAll os s = some t ∧ t.Bounded ∧ t.Silent ∧ t.Canonical := by
  induction os generalizing s with
  | nil => exact ⟨s, rfl, bounded, silent, canonical⟩
  | cons o os ih =>
    obtain ⟨first, rest⟩ := List.forall_mem_cons.mp ordinary
    rw [performAll]
    match performed : perform o s with
    | .next t =>
      exact ih rest (perform_bounded first bounded performed) (perform_silent silent performed)
        (perform_canonical canonical performed)
    | .fault f => exact ih rest bounded silent canonical
    | .refused r => exact absurd performed (perform_ne_refused first bounded r)

/-- Settles O55: each operation keeps the three properties and is not refused, so a session does by induction
(`performAll_invariant`). -/
theorem everySessionFromResetHasAMeaning : Obligations.EverySessionFromResetHasAMeaning := by
  obtain ⟨-, resetBounded, resetSilent, resetCanonical⟩ := resetMeetsTheInvariants
  refine ⟨fun o s ordinary bounded silent canonical => ⟨perform_ne_refused ordinary bounded, fun t performed => ?_⟩, ?_⟩
  · exact ⟨perform_bounded ordinary bounded performed, perform_silent silent performed, perform_canonical canonical performed⟩
  · intro os ordinary
    exact performAll_invariant ordinary resetBounded resetSilent resetCanonical

end Sys2Proof.Machine
end

section
/-! The single instructions: control transfer, the skip on two registers, register arithmetic, the index register, the keys
and the delay timer (spec/41_flow.md to spec/47_timer.md). -/

namespace Sys2Proof.Machine

/-! ### Control transfer -/

theorem exec_ret (s : State) : exec .ret s = execRet s := rfl

theorem exec_callNnn (nnn : Addr12) (s : State) : exec (.callNnn nnn) s = execCallNnn nnn s := rfl

/-- A target given as a word and a distance, when it stays within 16 bits. -/
theorem goto_add {a : Word} {d : Nat} (room : a.toNat + d ≤ 0xFFFF) (t : State) :
    goto (a.toNat + d) t = .next (t.setPc (a + BitVec.ofNat 16 d)) :=
  advance_of_le (s := t.setPc a) room

/-- Settles O15: the pop answers the slot below `sp`, and the target is two above its value. -/
theorem returnPopsTheCallSite : Obligations.ReturnPopsTheCallSite := by
  refine ⟨decode_ret, fun s ⟨j, hj⟩ ⟨p, hp⟩ depth depth' room => ?_⟩
  obtain rfl : p = j := depth'
  obtain rfl : p = s.sp.val - 1 := Nat.eq_sub_of_add_eq depth.symm
  rcases s.pop_cases with ⟨empty, -⟩ | ⟨used, popped⟩
  · omega
  · rw [exec_ret, execRet, popped]
    exact goto_add room _

/-- Settles O16: the checks of `State.pop` and `State.push` come before any write. -/
theorem stackBoundsFault : Obligations.StackBoundsFault := by
  constructor
  · intro s empty
    rcases s.pop_cases with ⟨-, popped⟩ | ⟨used, -⟩
    · rw [exec_ret, execRet, popped]; rfl
    · omega
  · intro nnn s full
    rcases s.push_cases s.pc with ⟨-, pushed⟩ | ⟨room, -⟩
    · rw [exec_callNnn, execCallNnn, pushed]; rfl
    · omega

/-- Settles O18: what is pushed is the `pc` of the `CALL`, which has not moved yet. -/
theorem callPushesItsOwnAddress : Obligations.CallPushesItsOwnAddress := by
  intro nnn s ⟨j, hj⟩ ⟨p, hp⟩ depth depth'
  refine ⟨decode_encode (.callNnn nnn), ?_⟩
  obtain rfl : s.sp.val = j := depth
  obtain rfl : p = s.sp.val + 1 := depth'
  rcases s.push_cases s.pc with ⟨full, -⟩ | ⟨room, pushed⟩
  · omega
  · rw [exec_callNnn, execCallNnn, pushed, ← zextAddr_eq_append]
    rfl

/-! ### The skip on two registers -/

/-- `SNE Vx,Vy` compares for difference (R122). -/
theorem exec_sneVxVy (x y : Nibble) (s : State) :
    exec (.sneVxVy x y) s = advance (skipDistance (s.readV x != s.readV y)) s := rfl

/-- In class 9 the low nibble 0 is the only legal one (R76, D15). -/
theorem illegalWord_of_class9 {w : Word} (class9 : fieldOp w = 0x9#4) (low : fieldN w ≠ 0x0#4) : IllegalWord w :=
  .inr (.inr (.inr (.inr (.inl ⟨class9, low⟩))))

/-- Settles O21: the low nibble decides between `SNE Vx,Vy` and an illegal word, and the comparison between the two distances.
-/
theorem skipIfRegistersDiffer : Obligations.SkipIfRegistersDiffer := by
  intro x y s
  refine ⟨decode_encode (.sneVxVy x y), ?_, ?_, ?_⟩
  · intro n other
    have low : fieldN (0x9#4 ++ x ++ y ++ n) ≠ 0x0#4 := by rwa [fieldN_xyn]
    exact decode_illegal (illegalWord_of_class9 (fieldOp_xyn 0x9#4 x y n) low)
  · intro different room
    exact advance_skip_taken (bne_iff_ne.mpr different) room
  · intro equal room
    exact advance_skip_not_taken (bne_eq_false_iff_eq.mpr equal) room

/-! ### Register writes and arithmetic -/

/-- Settles O22: the register file is the only field written. -/
theorem registerWriteChangesOneRegister : Obligations.RegisterWriteChangesOneRegister :=
  fun s x b => ⟨fun y => s.readV_setV x b y, rfl⟩

/-- The carry flag is 1 exactly when the unbounded sum leaves 8 bits: then the reduced sum is below the old value (R131). -/
theorem carryFlag_add (old kk : Byte) :
    carryFlag old (old + kk) = if 256 ≤ old.toNat + kk.toNat then 0x01#8 else 0x00#8 := by
  have wrapped : old + kk < old ↔ 256 ≤ old.toNat + kk.toNat := by
    rw [BitVec.lt_def, BitVec.toNat_add]
    have := old.isLt
    have := kk.isLt
    omega
  simp only [carryFlag, wrapped]

/-- The 8-bit sum is the sum modulo 256. -/
theorem add_eq_ofNat_mod (old kk : Byte) : old + kk = BitVec.ofNat 8 ((old.toNat + kk.toNat) % 256) := by
  apply BitVec.eq_of_toNat_eq
  rw [BitVec.toNat_add, BitVec.toNat_ofNat, Nat.mod_mod]

/-- `ADD Vx,kk` writes the sum and after it the carry of R131. -/
theorem exec_addVxKk (x : Nibble) (kk : Byte) (s : State) :
    exec (.addVxKk x kk) s =
      advance 2 ((s.setV x (s.readV x + kk)).setV 15#4 (carryFlag (s.readV x) (s.readV x + kk))) := rfl

/-- Settles O24: the 8-bit sum is the reduced one, and it is below the old value exactly when it was reduced (`carryFlag_add`).
-/
theorem addImmediateWritesSumThenCarry : Obligations.AddImmediateWritesSumThenCarry := by
  intro x kk s room
  refine ⟨decode_encode (.addVxKk x kk), ?_⟩
  rw [exec_addVxKk, carryFlag_add, add_eq_ofNat_mod]
  exact advance_two_setV (s := s.setV x _) 15#4 _ room

/-- `RND Vx,kk` draws one byte and writes the masked byte (R133). -/
theorem exec_rndVxKk (x : Nibble) (kk : Byte) (s : State) :
    exec (.rndVxKk x kk) s = advance 2 (s.nextRandom.2.setV x (kk &&& Config.rand s.rndCount)) := rfl

/-- A masked byte has no bit outside the mask. -/
theorem masked_and_not_mask (kk r : Byte) : (kk &&& r) &&& ~~~kk = 0x00#8 := by
  rw [BitVec.and_comm kk r, BitVec.and_assoc, BitVec.and_not_self]
  exact BitVec.and_zero

/-- Settles O26: the byte is the next of the random source, drawn before the register is written. -/
theorem randomMaskedIntoRegister : Obligations.RandomMaskedIntoRegister := by
  intro x kk s room
  refine ⟨decode_encode (.rndVxKk x kk), Config.rand s.rndCount, ?_, rfl, masked_and_not_mask kk _⟩
  rw [exec_rndVxKk]
  exact advance_two_setV (s := s.nextRandom.2) x _ room

/-! ### The index register -/

/-- `LD I,nnn` writes the zero-extended address (R140). -/
theorem exec_ldINnn (nnn : Addr12) (s : State) : exec (.ldINnn nnn) s = advance 2 (s.setI (zextAddr nnn)) := rfl

theorem exec_addIVx (x : Nibble) (s : State) : exec (.addIVx x) s = execAddIVx x s := rfl

/-- Settles O27: the zero extension is written out as four zero bits above the address. -/
theorem loadIndex : Obligations.LoadIndex := by
  intro nnn s room
  refine ⟨decode_encode (.ldINnn nnn), ?_⟩
  rw [exec_ldINnn, zextAddr_eq_append]
  exact advance_of_le (s := s.setI _) room

/-- Settles O28: the bound is the negation of the handler's test. -/
theorem addToIndex : Obligations.AddToIndex := by
  intro x s room fits
  refine ⟨decode_encode (.addIVx x), ?_⟩
  rw [exec_addIVx, execAddIVx, State.indexSum, if_neg (Nat.not_lt_of_le fits)]
  exact advance_of_le (s := s.setI _) room

/-- Settles O29: the test on the unbounded sum comes before any write. -/
theorem addToIndexOverflowFaults : Obligations.AddToIndexOverflowFaults := by
  intro x s above
  rw [exec_addIVx, execAddIVx, State.indexSum, if_pos above, raise, State.latch]

/-! ### Keys -/

/-- Settles O35: the distance is 4 exactly when the key is down. -/
theorem skipIfKeyPressed : Obligations.SkipIfKeyPressed := by
  intro x s h
  rw [exec_skpVx h]
  exact ⟨decode_encode (.skpVx x), fun pressed room => advance_skip_taken pressed room,
    fun released room => advance_skip_not_taken released room⟩

/-- Settles O36: the distance is 4 exactly when the key is not down. -/
theorem skipIfKeyNotPressed : Obligations.SkipIfKeyNotPressed := by
  intro x s h
  rw [exec_sknpVx h]
  refine ⟨decode_encode (.sknpVx x), fun released room => ?_, fun pressed room => ?_⟩
  · exact advance_skip_taken (by rw [released, Bool.not_false]) room
  · exact advance_skip_not_taken (by rw [pressed, Bool.not_true]) room

/-- Settles O37: the operand is tested as it is, before any write. -/
theorem keyNumberOutOfRangeFaults : Obligations.KeyNumberOutOfRangeFaults := by
  intro x s large
  rw [exec_skpVx_large large, exec_sknpVx_large large]
  exact ⟨rfl, rfl⟩

/-! ### The delay timer -/

/-- `LD Vx,DT` writes the delay timer to the register (R170). -/
theorem exec_ldVxDt (x : Nibble) (s : State) : exec (.ldVxDt x) s = advance 2 (s.setV x s.dt) := rfl

/-- `LD DT,Vx` writes the register to the delay timer (R171). -/
theorem exec_ldDtVx (x : Nibble) (s : State) : exec (.ldDtVx x) s = advance 2 (s.setDt (s.readV x)) := rfl

/-- A running engine that fetches an instruction's word and completes it ends the step with the tick (R94). -/
theorem step_of_completed {s t : State} {i : Instr} (running : s.Running) (fetched : fetch s = .ok (encode i))
    (executed : exec i s = .next t) (completed : t.Running) : step s = .next (timerTick t).1 := by
  rw [step, cycle_of_completed running fetched (decode_encode i) executed completed]

/-- Settles O38: the tick after the handler lowers `DT` and leaves the register. -/
theorem loadFromDelayTimer : Obligations.LoadFromDelayTimer := by
  intro x s room
  have executed : exec (.ldVxDt x) s = .next { s.setV x s.dt with pc := s.pc + 2#16 } := by
    rw [exec_ldVxDt]
    exact advance_two_setV x s.dt room
  refine ⟨decode_encode (.ldVxDt x), executed, fun running fetched => ?_⟩
  refine ⟨_, step_of_completed (i := .ldVxDt x) running fetched executed running, ?_, tickDown_toNat s.dt⟩
  exact (s.readV_setV x s.dt x).trans (if_pos rfl)

/-- Settles O39: the tick after the handler lowers the value just loaded. -/
theorem loadDelayTimer : Obligations.LoadDelayTimer := by
  intro x s room
  have executed : exec (.ldDtVx x) s = .next { s with dt := s.readV x, pc := s.pc + 2#16 } := by
    rw [exec_ldDtVx]
    exact advance_of_le (s := s.setDt _) room
  refine ⟨decode_encode (.ldDtVx x), executed, fun running fetched => ?_⟩
  exact ⟨_, step_of_completed (i := .ldDtVx x) running fetched executed running, tickDown_toNat (s.readV x)⟩

end Sys2Proof.Machine
end

section
/-! The host's operations (spec/20_memory.md, spec/70_reset_and_hazards.md, spec/10_state.md section 8). -/

namespace Sys2Proof.Machine

/-- Settles O57: the three clauses are the cases of `Memory.readWord`: both bytes in range, only the first, neither. -/
theorem readWordIsBigEndian : Obligations.ReadWordIsBigEndian := by
  intro a s
  refine ⟨fun inMemory => ?_, ?_, fun beyond => ?_⟩
  · exact Memory.readWord_ok (Nat.lt_of_le_of_lt (Nat.succ_le_succ inMemory) (by decide))
  · rintro rfl
    exact Memory.readWord_last s.mem
  · exact Memory.readWord_beyond beyond

/-- Settles O58: an image that is not too large ends inside memory, so every byte of it is written. -/
theorem loadCopiesTheImage : Obligations.LoadCopiesTheImage := by
  intro bytes s
  constructor
  · intro small
    refine ⟨Memory.writeBytes s.mem Config.progBase bytes, ?_, fun a _ => ?_⟩
    · rw [loadProgram, if_neg (Nat.not_lt_of_le small), State.setMem]
    · exact Memory.byteAt_writeBytes s.mem 0x200 a bytes (by omega)
  · intro large
    rw [loadProgram, if_pos large]

/-- Settles O59: every field but the memory and the two counters is that of `State.reset`. -/
theorem resetLeavesTheStatedValues : Obligations.ResetLeavesTheStatedValues := by
  intro s
  refine ⟨s.engineReset, rfl, fun x => ?_, rfl, rfl, rfl, fun j => ?_, fun k _ => ?_, rfl, rfl, fun k _ => ?_, rfl, rfl, rfl, rfl⟩
  · exact State.reset_readV x
  · exact Vector.getElem_replicate j.isLt
  · exact framePixel_clear k
  · exact BitVec.getLsbD_zero

/-- Settles O60: the written bit is set by the OR and cleared by the AND, and no other bit is touched by either. -/
theorem keyWriteChangesOneKey : Obligations.KeyWriteChangesOneKey := by
  intro k pressed s
  refine ⟨_, rfl, fun j inRange => ?_⟩
  by_cases same : k.toNat = j
  · cases pressed <;> simp [same, inRange]
  · cases pressed <;> simp [Ne.symm same, inRange, State.keyDown]

end Sys2Proof.Machine
end

section
/-! The drawing instruction (spec/45_display.md R151, R152). -/

namespace Sys2Proof.Machine

theorem exec_drwVxVyN (x y n : Nibble) (s : State) : exec (.drwVxVyN x y n) s = execDrwVxVyN x y n s := rfl

/-! ### A sprite that fits -/

/-- A sprite that fits is drawn: the covered pixels are toggled, `VF` tells whether one of them was 1, and `pc` moves on by 2. -/
theorem exec_drw_of_fits {x y n : Nibble} {s : State} (room : s.pc.toNat + 2 ≤ 0xFFFF)
    (fits : SpriteFits s.mem s.i (s.readV x).toNat (s.readV y).toNat n.toNat) :
    ∃ f : Frame,
      exec (.drwVxVyN x y n) s = .next
        { s.setV 15#4 (if spriteHits s.mem s.i (s.readV x).toNat (s.readV y).toNat n.toNat s.fb then 0x01#8 else 0x00#8) with
          fb := f, pc := s.pc + 2#16 } ∧
      ∀ k, framePixel f k =
        (framePixel s.fb k ^^ spriteCovers s.mem s.i (s.readV x).toNat (s.readV y).toNat n.toNat k) := by
  obtain ⟨c, drawn, pixels, flag⟩ := drawRows_ok s.mem s.i _ _ _ fits { fb := s.fb, vf := 0x00#8 }
  refine ⟨c.fb, ?_, pixels⟩
  rw [exec_drwVxVyN, execDrwVxVyN, drawn, ← flag]
  exact advance_two_setV (s := s.setFb c.fb) 15#4 c.vf room

/-- Settles O31: the drawing loops do what `spriteCovers` and `spriteHits` say (`exec_drw_of_fits`). -/
theorem drawTogglesTheSprite : Obligations.DrawTogglesTheSprite := by
  intro x y n s room fits
  obtain ⟨f, executed, pixels⟩ := exec_drw_of_fits room fits
  exact ⟨decode_encode (.drwVxVyN x y n), fun _ _ => rfl, f, executed, fun k _ => pixels k⟩

/-- A sprite hits nothing on a clear framebuffer. -/
theorem spriteHits_of_clear {m : List Host.Cell} {i : Word} {px py n : Nat} {fb : Frame}
    (fits : SpriteFits m i px py n) (clear : ∀ k < 2048, framePixel fb k = false) : spriteHits m i px py n fb = false := by
  rw [spriteHits, List.any_eq_false]
  intro row inRows
  rw [List.any_eq_true]
  rintro ⟨col, inCols, hit⟩
  obtain ⟨set, lit⟩ := Bool.and_eq_true_iff.mp hit
  obtain ⟨column, line⟩ := (fits row (List.mem_range.mp inRows)).2 col (List.mem_range.mp inCols) set
  rw [clear _ (by omega)] at lit
  cases lit

/-- A sprite covers each pixel on which one of its set bits lands. -/
theorem spriteCovers_of_bit {m : List Host.Cell} {i : Word} {px py n row col : Nat} (inRows : row < n) (inCols : col < 8)
    (set : spriteBit m i row col = true) : spriteCovers m i px py n ((px + col) + (py + row) * 64) = true := by
  rw [spriteCovers, List.any_eq_true]
  refine ⟨row, List.mem_range.mpr inRows, List.any_eq_true.mpr ⟨col, List.mem_range.mpr inCols, ?_⟩⟩
  rw [set, Bool.true_and, decide_eq_true_iff]

/-- A sprite hits each pixel that is 1 and on which one of its set bits lands. -/
theorem spriteHits_of_bit {m : List Host.Cell} {i : Word} {px py n row col : Nat} {fb : Frame} (inRows : row < n)
    (inCols : col < 8) (set : spriteBit m i row col = true) (lit : framePixel fb ((px + col) + (py + row) * 64) = true) :
    spriteHits m i px py n fb = true := by
  rw [spriteHits, List.any_eq_true]
  refine ⟨row, List.mem_range.mpr inRows, List.any_eq_true.mpr ⟨col, List.mem_range.mpr inCols, ?_⟩⟩
  rw [set, lit, Bool.and_self]

/-- Settles O34: with coordinates that the flag does not overwrite the second draw covers the same pixels, and toggling twice
is no change; what it hits are the pixels that the first one has lit. -/
theorem drawingTwiceRestoresTheFramebuffer : Obligations.DrawingTwiceRestoresTheFramebuffer := by
  intro x y n s notFlagX notFlagY room fits
  obtain ⟨f, first, pixels⟩ := exec_drw_of_fits (by omega) fits
  generalize flag : (if spriteHits s.mem s.i _ _ _ s.fb then 0x01#8 else 0x00#8 : Byte) = b at first
  let t : State := { s.setV 15#4 b with fb := f, pc := s.pc + 2#16 }
  have sameX : t.readV x = s.readV x := s.readV_setV_of_ne x b notFlagX.symm
  have sameY : t.readV y = s.readV y := s.readV_setV_of_ne y b notFlagY.symm
  have room' : t.pc.toNat + 2 ≤ 0xFFFF := by
    show (s.pc + 2#16).toNat + 2 ≤ 0xFFFF
    rw [BitVec.toNat_add, BitVec.toNat_ofNat]
    omega
  obtain ⟨f', second, pixels'⟩ := exec_drw_of_fits (s := t) (x := x) (y := y) (n := n) room' (by rw [sameX, sameY]; exact fits)
  rw [sameX, sameY] at second pixels'
  refine ⟨t, _, first, second, frame_ext fun k _ => ?_, fun clear ⟨row, inRows, col, inCols, set⟩ => ⟨?_, ?_⟩⟩
  · rw [pixels' k]
    show (framePixel f k ^^ _) = framePixel s.fb k
    rw [pixels k, Bool.xor_assoc]
    exact (congrArg _ (Bool.xor_self _)).trans (Bool.xor_false _)
  · rw [spriteHits_of_clear fits clear] at flag
    exact ((s.readV_setV 15#4 b 15#4).trans (if_pos rfl)).trans flag.symm
  · obtain ⟨column, line⟩ := (fits row inRows).2 col inCols set
    have lit := pixels (((s.readV x).toNat + col) + ((s.readV y).toNat + row) * 64)
    rw [clear _ (by omega), spriteCovers_of_bit inRows inCols set] at lit
    have hit := spriteHits_of_bit inRows inCols set lit
    exact ((t.readV_setV 15#4 _ 15#4).trans (if_pos rfl)).trans (if_pos hit)

/-! ### A sprite that does not fit -/

/-- The numbers below `n`, cut at one of them. -/
theorem range_split {k n : Nat} (h : k < n) : ∃ rest, List.range n = List.range k ++ k :: rest := by
  obtain ⟨d, rfl⟩ := Nat.exists_eq_add_of_lt h
  rw [Nat.add_assoc, List.range_add, List.range_succ_eq_map, List.map_cons]
  exact ⟨_, rfl⟩

/-- When the rows before one are drawn and that one faults whatever it is drawn on, the sprite faults so. -/
theorem drawRows_error_at {m : List Host.Cell} {i : Word} {px py n row : Nat} {f : Fault} (inRows : row < n)
    (fits : SpriteFits m i px py row) (faults : ∀ c, drawRow m i px py row c = .error f) (c : Canvas) :
    drawRows m i px py (List.range n) c = .error f := by
  obtain ⟨rest, cut⟩ := range_split inRows
  obtain ⟨c', drawn, -⟩ := drawRows_ok m i px py row fits c
  simp only [cut, drawRows_append, drawn, drawRows, faults]

/-- When the columns before one are drawn and that one has a set bit outside the grid, the row faults with its coordinates. -/
theorem drawColumns_error_at {px py row col : Nat} {b : Byte} (inCols : col < 8) (set : spriteColumn b col = true)
    (outside : onScreen (px + col) (py + row) = false)
    (fits : ∀ c < col, spriteColumn b c = true → onScreen (px + c) (py + row) = true) (c : Canvas) :
    drawColumns px py row b (List.range 8) c = .error (.framebufferOutOfBounds (px + col) (py + row)) := by
  obtain ⟨rest, cut⟩ := range_split inCols
  obtain ⟨c', drawn, -⟩ :=
    drawColumns_ok px py row b (List.range col) List.nodup_range (fun k inRange => fits k (List.mem_range.mp inRange)) c
  simp only [cut, drawColumns_append, drawn, drawColumns]
  rcases drawBit_cases px py row b col c' with ⟨unset, -⟩ | ⟨-, inside, -⟩ | ⟨-, -, fault⟩
  · rw [set] at unset; cases unset
  · rw [outside] at inside; cases inside
  · rw [fault]

/-- A sprite that faults leaves the free values and the latch (R151, D12). -/
theorem exec_drw_of_error {x y n : Nibble} {s : State} {f : Fault}
    (faults : ∀ c, drawRows s.mem s.i (s.readV x).toNat (s.readV y).toNat (List.range n.toNat) c = .error f) :
    exec (.drwVxVyN x y n) s = .next (s.spoilDraw.latch f) := by
  rw [exec_drwVxVyN, execDrwVxVyN, faults]
  rfl

/-- Settles O32: the byte of the row cannot be read, whatever has been drawn before. -/
theorem drawRowOutsideMemoryFaults : Obligations.DrawRowOutsideMemoryFaults := by
  intro x y n s row inRows fits outside
  refine exec_drw_of_error (drawRows_error_at inRows fits fun c => ?_)
  rw [drawRow, Memory.readByte_error (a := rowAddress s.i row) outside]
  rfl

/-- Settles O33: the row's byte is read and the bits before the one outside draw, so the fault is that bit's. -/
theorem drawBitOutsideGridFaults : Obligations.DrawBitOutsideGridFaults := by
  intro x y n s row col inRows inCols fits inMemory set outside before
  refine exec_drw_of_error (drawRows_error_at inRows fits fun c => ?_)
  rw [drawRow, Memory.readByte_ok (a := rowAddress s.i row) (Nat.lt_succ_of_le inMemory)]
  refine drawColumns_error_at inCols set ?_ (fun k earlier bit => onScreen_iff.mpr (before k earlier bit)) c
  rw [Bool.eq_false_iff, Ne, onScreen_iff]
  omega

end Sys2Proof.Machine
end
